-- ==== Sys2Proof/Word.lean ====
section
/-! DEFINITION. The word types of the CORE: the byte (R3), the 9-bit program counter (R14) and the register index (R5). -/

namespace Sys2Proof

/-- R3: every general register, memory cell and operand byte is an unsigned value in 0..255. -/
abbrev Byte := BitVec 8

/-- R14: the program counter is a 9-bit unsigned register; its reachable values are 0..256. -/
abbrev Pc := BitVec 9

/-- R5: a register index is 0..7. An operand byte becomes one only through CheckReg (R72). -/
abbrev RegIndex := Fin 8

end Sys2Proof
end

