-- ==== Sys2Proof/Syntax.lean ====
section
/-! DEFINITION. The instructions of the CORE: one constructor per row of spec/opcode_table.json, in the table's order. -/

namespace Sys2Proof

/-- R49, R50: the operand bytes that follow an instruction word. The number of bytes is the word's field N, which
is 0, 1 or 2; no other count exists as an instruction. -/
inductive Operands where
  /-- N = 0: the word stands alone. -/
  | zero
  /-- N = 1: one operand byte, at pc0+1. -/
  | one (a : Byte)
  /-- N = 2: two operand bytes, at pc0+1 and pc0+2. -/
  | two (a b : Byte)
  deriving DecidableEq, Repr

/-- R53: the fifteen assigned instructions. R56: each runs with any legal operand count, so each carries the operand
bytes as they were read, also the bytes of slots it does not use (R51). -/
inductive Instr where
  | ldi (ops : Operands)
  | prn (ops : Operands)
  | hlt (ops : Operands)
  | push (ops : Operands)
  | pop (ops : Operands)
  | call (ops : Operands)
  | ret (ops : Operands)
  | jmp (ops : Operands)
  | jeq (ops : Operands)
  | jne (ops : Operands)
  | add (ops : Operands)
  | sub (ops : Operands)
  | mul (ops : Operands)
  | div (ops : Operands)
  | cmp (ops : Operands)
  deriving DecidableEq, Repr

end Sys2Proof
end

