-- ==== Sys2Proof/Machine/Operands.lean ====
section
/-! DEFINITION. The operand forms: operand count, the zero-padded slots (R50) and the role of each slot (R51). -/

namespace Sys2Proof

/-- R49: the operand count N. -/
def Operands.count : Operands → Nat
  | .zero => 0
  | .one _ => 1
  | .two _ _ => 2

/-- R50: slot a of the operand tuple; a slot that N does not cover reads as 0. -/
def Operands.slotA : Operands → Byte
  | .zero => 0#8
  | .one a => a
  | .two a _ => a

/-- R50: slot b of the operand tuple; a slot that N does not cover reads as 0. -/
def Operands.slotB : Operands → Byte
  | .zero => 0#8
  | .one _ => 0#8
  | .two _ b => b

/-- R37, R50: the operand bytes as they lie in memory, at ascending addresses. -/
def Operands.bytes : Operands → List Byte
  | .zero => []
  | .one a => [a]
  | .two a b => [a, b]

/-- The operand bytes of an instruction. -/
def Instr.operands : Instr → Operands
  | .ldi ops => ops
  | .prn ops => ops
  | .hlt ops => ops
  | .push ops => ops
  | .pop ops => ops
  | .call ops => ops
  | .ret ops => ops
  | .jmp ops => ops
  | .jeq ops => ops
  | .jne ops => ops
  | .add ops => ops
  | .sub ops => ops
  | .mul ops => ops
  | .div ops => ops
  | .cmp ops => ops

/-- R51: slot a is a register index in every instruction but HLT and RET. -/
def Instr.slotAIsRegister : Instr → Bool
  | .ldi _ => true
  | .prn _ => true
  | .hlt _ => false
  | .push _ => true
  | .pop _ => true
  | .call _ => true
  | .ret _ => false
  | .jmp _ => true
  | .jeq _ => true
  | .jne _ => true
  | .add _ => true
  | .sub _ => true
  | .mul _ => true
  | .div _ => true
  | .cmp _ => true

/-- R51: slot b is a register index in the ALU instructions only; it is LDI's immediate, and unused elsewhere. -/
def Instr.slotBIsRegister : Instr → Bool
  | .ldi _ => false
  | .prn _ => false
  | .hlt _ => false
  | .push _ => false
  | .pop _ => false
  | .call _ => false
  | .ret _ => false
  | .jmp _ => false
  | .jeq _ => false
  | .jne _ => false
  | .add _ => true
  | .sub _ => true
  | .mul _ => true
  | .div _ => true
  | .cmp _ => true

end Sys2Proof
end

