-- ==== Sys2Proof/WellFormed.lean ====
section
/-! DEFINITION. The well-formedness check of an instruction: a register-index slot names one of the eight registers
(R51: "Only 0..7 is legal"). An instruction that fails it still decodes, and its meaning raises RegisterIndexOutOfRange (R72, R100). -/

namespace Sys2Proof

/-- R51: when slot a is a register index, it is at most 7. -/
def Instr.slotAOk (i : Instr) : Bool :=
  !i.slotAIsRegister || decide (i.operands.slotA.toNat ≤ 7)

/-- R51: when slot b is a register index, it is at most 7. -/
def Instr.slotBOk (i : Instr) : Bool :=
  !i.slotBIsRegister || decide (i.operands.slotB.toNat ≤ 7)

/-- R51: every register-index slot the instruction uses names a register. -/
def Instr.wf (i : Instr) : Bool :=
  i.slotAOk && i.slotBOk

end Sys2Proof
end

