-- ==== Sys2Proof/Decode.lean ====
section
/-! DEFINITION. The instruction decoder, total on every list of bytes, and the encoder, from the tables of 30_encoding.md. -/

namespace Sys2Proof

/-- R47: field N, bits 7:6 of the instruction word. -/
def operandCountField (w : Byte) : BitVec 2 :=
  w.extractLsb' 6 2

/-- R47: field A, bit 5, the ALU-class flag. -/
def aluFlag (w : Byte) : Bool :=
  w.getLsbD 5

/-- R47: field P, bit 4, the sets-PC flag. -/
def setsPcFlag (w : Byte) : Bool :=
  w.getLsbD 4

/-- R47: field op, bits 4:0. It contains bit 4 (R48). -/
def opcodeField (w : Byte) : BitVec 5 :=
  w.extractLsb' 0 5

/-- R48: P is bit 4 of the opcode. -/
def opcodeSetsPc (op : BitVec 5) : Bool :=
  op.getLsbD 4

/-- R53, R75: the ALU operation of a sub-opcode; `none` for the 27 sub-opcodes that name none (R55). -/
def aluInstr (op : BitVec 5) (ops : Operands) : Option Instr :=
  match op.toNat with
  | 0 => some (.add ops)
  | 1 => some (.sub ops)
  | 2 => some (.mul ops)
  | 3 => some (.div ops)
  | 7 => some (.cmp ops)
  | _ => none

/-- R53, R67: the fixed handler table; `none` where no handler is registered, which is the no-op of R57. -/
def handlerInstr (op : BitVec 5) (ops : Operands) : Option Instr :=
  match op.toNat with
  | 1 => some (.hlt ops)
  | 2 => some (.ldi ops)
  | 5 => some (.push ops)
  | 6 => some (.pop ops)
  | 7 => some (.prn ops)
  | 16 => some (.call ops)
  | 17 => some (.ret ops)
  | 20 => some (.jmp ops)
  | 21 => some (.jeq ops)
  | 22 => some (.jne ops)
  | _ => none

/-- What a list of bytes decodes to (the outcome table of 30_encoding.md section 4). `rest` is what follows the instruction. -/
inductive Decoded where
  /-- R56: an assigned instruction. -/
  | instr (i : Instr) (rest : List Byte)
  /-- R57: a word with A = 0 whose opcode names no handler: the designed no-op. -/
  | noop (op : BitVec 5) (ops : Operands) (rest : List Byte)
  /-- R49: the word `w` has N = 3. -/
  | illegalOperandCount (w : Byte)
  /-- R50: byte number `k` of the instruction (0 the word, 1 and 2 its operands) is not there. -/
  | missingByte (k : Nat)
  /-- R55: a word with A = 1 whose opcode names no ALU operation. -/
  | unsupportedOperation (op : BitVec 5)
  deriving DecidableEq, Repr

/-- R52, R66, R67: dispatch on (A, op) alone, the ALU-class check before any handler lookup. -/
def selectInstr (w : Byte) (ops : Operands) (rest : List Byte) : Decoded :=
  if aluFlag w then
    match aluInstr (opcodeField w) ops with
    | some i => .instr i rest
    | none => .unsupportedOperation (opcodeField w)
  else
    match handlerInstr (opcodeField w) ops with
    | some i => .instr i rest
    | none => .noop (opcodeField w) ops rest

/-- R63 stage 1, R49, R50: the word, then the operand count check, then the operand bytes in order, then dispatch. -/
def decode : List Byte → Decoded
  | [] => .missingByte 0
  | w :: bytes =>
    match (operandCountField w).toNat, bytes with
    | 0, rest => selectInstr w .zero rest
    | 1, a :: rest => selectInstr w (.one a) rest
    | 1, [] => .missingByte 1
    | 2, a :: b :: rest => selectInstr w (.two a b) rest
    | 2, [_] => .missingByte 2
    | 2, [] => .missingByte 1
    | _, _ => .illegalOperandCount w

/-- R53: bits 5:0 of an instruction's word, the ALU-class flag and the opcode. -/
def Instr.key : Instr → BitVec 6
  | .ldi _ => 0b000010#6
  | .prn _ => 0b000111#6
  | .hlt _ => 0b000001#6
  | .push _ => 0b000101#6
  | .pop _ => 0b000110#6
  | .call _ => 0b010000#6
  | .ret _ => 0b010001#6
  | .jmp _ => 0b010100#6
  | .jeq _ => 0b010101#6
  | .jne _ => 0b010110#6
  | .add _ => 0b100000#6
  | .sub _ => 0b100001#6
  | .mul _ => 0b100010#6
  | .div _ => 0b100011#6
  | .cmp _ => 0b100111#6

/-- R54: the instruction word, `N<<6 | A<<5 | op`. -/
def Instr.word (i : Instr) : Byte :=
  BitVec.ofNat 2 i.operands.count ++ i.key

/-- R37, R49: the bytes of an instruction, its word and then its operand bytes at ascending addresses. -/
def encode (i : Instr) : List Byte :=
  i.word :: i.operands.bytes

/-- R54: the operand count the assembler emits for an instruction, the number of slots its contract names. -/
def Instr.canonicalCount : Instr → Nat
  | .ldi _ => 2
  | .prn _ => 1
  | .hlt _ => 0
  | .push _ => 1
  | .pop _ => 1
  | .call _ => 1
  | .ret _ => 0
  | .jmp _ => 1
  | .jeq _ => 1
  | .jne _ => 1
  | .add _ => 2
  | .sub _ => 2
  | .mul _ => 2
  | .div _ => 2
  | .cmp _ => 2

/-- The three bytes of the longest instruction, from a number whose bits are numbered as spec/opcode_table.json numbers
them: the low byte is the instruction word, the next bytes its operands; bits from `nbits` on are 0. -/
def tableBytes (nbits w : Nat) : List Byte :=
  let v := w % 2 ^ nbits
  [BitVec.ofNat 8 v, BitVec.ofNat 8 (v / 256), BitVec.ofNat 8 (v / 65536)]

/-- The instruction the decoder reads from such a number; `none` where it reads no assigned instruction. -/
def decodeTableWord (nbits w : Nat) : Option Instr :=
  match decode (tableBytes nbits w) with
  | .instr i _ => some i
  | .noop _ _ _ => none
  | .illegalOperandCount _ => none
  | .missingByte _ => none
  | .unsupportedOperation _ => none

end Sys2Proof
end

