-- ==== Sys2Proof/Config.lean ====
section
/-! DEFINITION. The sizes and fixed values of the CORE (00_scope.md section 4). The spec leaves no value free:
its only free input, the stop request (R21), is data of the state. -/

namespace Sys2Proof.Config

/-- R4, R32: memory has 256 cells, at addresses 0..255. -/
def memorySize : Nat := 256

/-- R25: every memory cell is 0x00 after reset, so this is what an address that lists nothing reads as. -/
def unlistedByte : Byte := 0x00#8

/-- R5, R10: register 7 is the stack pointer. -/
def spIndex : RegIndex := 7

/-- R29: the stack pointer after reset. -/
def spReset : Byte := 0xF4#8

/-- R26: registers 0 to 6 after reset (the spec's decision D4, log entry 4). -/
def gprReset : Byte := 0x00#8

/-- R27: the flags register after reset (the spec's decision D5, log entry 5). -/
def flReset : Byte := 0x00#8

/-- R28: the program counter after reset (the spec's decision D3, log entry 3). -/
def pcReset : Pc := 0#9

/-- R30: the internal return-address latch after reset (the spec's decision D14, log entry 9). -/
def raReset : Byte := 0x00#8

end Sys2Proof.Config
end

