-- ==== Sys2Proof/Machine/State.lean ====
section
/-! DEFINITION. The state of the CORE (10_state.md): every piece of state the spec names, the host's side of the
interface as lists of the transactions it makes and the answers it gets, and the state after reset. -/

namespace Sys2Proof.Machine

/-- R32: the memory, as the cells that differ from what an unlisted cell reads as, in the canonical form of `Memory.wf`. -/
abbrev Memory := List Host.Cell

/-- R17: the lifecycle state. -/
inductive Status where
  /-- Constructed; `load_image` is accepted and no instruction has run. -/
  | ready
  /-- `run()` is driving the Execution Loop. -/
  | running
  /-- Terminal: no further step runs until reset. -/
  | halted
  deriving DecidableEq, Repr

/-- R18: why the CORE left Running. -/
inductive Reason where
  | none
  | hlt
  | fault
  | stopped
  deriving DecidableEq, Repr

/-- R94: the six fatal conditions. -/
inductive FaultCause where
  | addressOutOfBounds
  | divideByZero
  | unsupportedOperation
  | malformedImage
  | illegalOperandCount
  | registerIndexOutOfRange
  deriving DecidableEq, Repr

/-- R19: the fault record: the condition, the address of the instruction that raised it, and its cause-specific value. -/
structure FaultRecord where
  cause : FaultCause
  pc : Pc
  info : Nat
  deriving DecidableEq, Repr

/-- R107: the diagnostic trace record; a byte is `none` where its address is above 255 (ABSENT). -/
structure TraceRecord where
  pc : Pc
  byte0 : Option Byte
  byte1 : Option Byte
  byte2 : Option Byte
  regs : Vector Byte 8
  deriving DecidableEq, Repr

/-- R23: the two host transactions that may change the CORE's state. (The accessors change nothing: they are functions
of the state, in Machine/HostInterface.lean.) -/
inductive HostCall where
  | loadImage (bytes : List Byte)
  | run
  deriving DecidableEq, Repr

/-- R23: what a host transaction returns. -/
inductive HostReply where
  /-- `load_image` returned ok. -/
  | imageLoaded
  /-- `load_image` raised MalformedImage with the image's length (R98). -/
  | malformedImage (length : Nat)
  /-- `load_image` outside Ready: refused with no change of state. -/
  | imageRefused
  /-- `run()` returned `(reason, fault)` (R62, R102). -/
  | runReturned (reason : Reason) (fault : Option FaultRecord)
  deriving DecidableEq, Repr

/-- The reasons for which the MODEL would stop with a fault. There are none: every fatal condition of the spec enters a
state the spec describes (R101), so it is a next state. A closed type with no constructor (safe: nothing raises it). -/
inductive Fault where
  deriving DecidableEq, Repr

/-- The reasons for which the model would refuse to run an instruction. -/
inductive Refusal where
  /-- An arm of exec that has no meaning yet; no arm raises it in this model (safe). -/
  | notModelled (mnemonic : String)
  deriving DecidableEq, Repr

/-- The machine (10_state.md section 1), and beside it the model's own four fields for what the host does. -/
structure State where
  /-- R32: memory, 256 cells of 8 bits. -/
  mem : Memory
  /-- R7: the general registers x[0] to x[7]; x[7] is SP (R10). -/
  regs : Vector Byte 8
  /-- R11, R13: the flags register. -/
  fl : Byte
  /-- R14: the program counter. -/
  pc : Pc
  /-- R16: the internal return-address latch. -/
  ra : Byte
  /-- R17: the lifecycle state. -/
  status : Status
  /-- R18: the halt reason. -/
  reason : Reason
  /-- R19: the fault record, or none. -/
  fault : Option FaultRecord
  /-- R20: the bytes PRN has emitted, oldest first. -/
  out : List Byte
  /-- R22: the trace records presented on the trace port, oldest first. -/
  trace : List TraceRecord
  /-- R21: the values `stop_req` has at the coming instruction boundaries, the next one first; past the end of the list
  no stop is requested. The free draw of R21 as data (log entry 12). -/
  stopReq : List Bool
  /-- R23: the transaction the host makes at each of the coming boundaries between steps, the next one first, `none` where
  it makes none; past the end of the list it makes none (log entry 13). -/
  hostCalls : List (Option HostCall)
  /-- R23: what the host's transactions returned, oldest first (log entry 13). -/
  hostReplies : List HostReply
  /-- R62: the `run()` calls that have not returned yet (log entry 13). -/
  runsWaiting : Nat
  deriving DecidableEq, Repr

/-- R114, R25 to R31: the state after reset. -/
def State.reset : State where
  mem := []
  regs := #v[Config.gprReset, Config.gprReset, Config.gprReset, Config.gprReset,
             Config.gprReset, Config.gprReset, Config.gprReset, Config.spReset]
  fl := Config.flReset
  pc := Config.pcReset
  ra := Config.raReset
  status := .ready
  reason := .none
  fault := none
  out := []
  trace := []
  stopReq := []
  hostCalls := []
  hostReplies := []
  runsWaiting := 0

end Sys2Proof.Machine
end

