-- ==== Sys2Proof/Machine/Flags.lean ====
section
/-! DEFINITION. The flags register (R11 to R13): its three bits, and the one computation that writes it (R80). -/

namespace Sys2Proof.Machine

/-- R13: bit 2, L. -/
def flagLess : Byte := 0b00000100#8

/-- R13: bit 1, G. -/
def flagGreater : Byte := 0b00000010#8

/-- R13: bit 0, E. -/
def flagEqual : Byte := 0b00000001#8

/-- R80: the flags after comparing `x` with `y`, both unsigned (the spec's decisions D6 and D7, log entries 6 and 7). -/
def compareFlags (x y : Byte) : Byte :=
  if x.toNat < y.toNat then flagLess else if x.toNat > y.toNat then flagGreater else flagEqual

/-- R91, R92: the explicit test of bit E, `fl[0]`. -/
def equalFlag (fl : Byte) : Bool :=
  fl.getLsbD 0

/-- R13: the flag values a machine can hold: 0x00 from reset, and one bit set after a CMP. -/
def legalFlags (fl : Byte) : Bool :=
  decide (fl = 0x00#8) || decide (fl = flagEqual) || decide (fl = flagGreater) || decide (fl = flagLess)

end Sys2Proof.Machine
end

