-- ==== Sys2Proof/Machine/Memory.lean ====
section
/-! DEFINITION. The memory of 256 bytes (20_memory.md) as a canonical list of cells, its one-byte read and write, and the
image a host load leaves in it. Bounds are checked by MemRead and MemWrite in Machine/Ops.lean, never here. -/

namespace Sys2Proof.Machine

/-- R25, R33: the byte a cell holds; a cell that is not listed holds 0x00, the reset value. -/
def Memory.read : Memory → Nat → Byte
  | [], _ => Config.unlistedByte
  | (a, v) :: rest, addr => if addr = a then v else Memory.read rest addr

/-- The insertion of a cell in address order. -/
def Memory.insert : Memory → Nat → Byte → Memory
  | [], addr, v => [(addr, v)]
  | (a, w) :: rest, addr, v =>
    if addr < a then (addr, v) :: (a, w) :: rest else (a, w) :: Memory.insert rest addr v

/-- R34: set one cell. Writing what an unlisted cell reads as leaves the cell unlisted. -/
def Memory.write (m : Memory) (addr : Nat) (v : Byte) : Memory :=
  let others := m.filter fun c => c.1 ≠ addr
  if v = Config.unlistedByte then others else Memory.insert others addr v

/-- Cells at strictly rising addresses from `low` on, all inside memory, none holding what an unlisted cell reads as. -/
def Memory.wfFrom : Nat → Memory → Bool
  | _, [] => true
  | low, (a, v) :: rest =>
    decide (low ≤ a) && decide (a < Config.memorySize) && decide (v ≠ Config.unlistedByte) && Memory.wfFrom (a + 1) rest

/-- The canonical form: equal memories are equal lists. -/
def Memory.wf (m : Memory) : Bool :=
  Memory.wfFrom 0 m

/-- R61: the memory that holds `bytes` from `addr` on and 0x00 elsewhere. -/
def Memory.ofBytes : Nat → List Byte → Memory
  | _, [] => []
  | addr, b :: bytes =>
    if b = Config.unlistedByte then Memory.ofBytes (addr + 1) bytes else (addr, b) :: Memory.ofBytes (addr + 1) bytes

/-- R37, R65: the bytes at `addr`, `addr + 1`, … that exist, at most `k` of them, ending at address 255. -/
def Memory.bytesFrom (m : Memory) (addr : Nat) : Nat → List Byte
  | 0 => []
  | k + 1 => if addr < Config.memorySize then m.read addr :: Memory.bytesFrom m (addr + 1) k else []

/-- The bytes stored one after the other from `addr` on. -/
def Memory.writeBytes : Memory → Nat → List Byte → Memory
  | m, _, [] => m
  | m, addr, b :: bytes => Memory.writeBytes (m.write addr b) (addr + 1) bytes

end Sys2Proof.Machine
end

