-- ==== Sys2Proof/Machine/Ops.lean ====
section
/-! DEFINITION. The operations the meanings share: registers, the program counter, fault entry (R101), MemRead and MemWrite
(R33, R34), CheckReg (R72), the
output port (R20) and the trace record (R107). -/

namespace Sys2Proof.Machine

/-- The three outcomes of a step of this machine. -/
abbrev Result := Host.Outcome State Fault Refusal

/-- R8: a read of general register `r`. -/
def State.reg (s : State) (r : RegIndex) : Byte :=
  s.regs[r]

/-- R9: a write of general register `r`. No register is hardwired (R7). -/
def State.setReg (s : State) (r : RegIndex) (v : Byte) : State :=
  { s with regs := s.regs.set r v }

/-- R10: the stack pointer, register 7. -/
def State.sp (s : State) : Byte :=
  s.reg Config.spIndex

/-- A write of the stack pointer. -/
def State.setSp (s : State) (v : Byte) : State :=
  s.setReg Config.spIndex v

/-- R69: the address after an instruction with these operands that begins at `pc`, `pc0 + N + 1`, computed without wrap. -/
def nextAddress (ops : Operands) (s : State) : Nat :=
  s.pc.toNat + ops.count + 1

/-- R69: the loop's advance, `pc <- pc0 + N + 1`; also the fall-through of JEQ and JNE (R91, R92). -/
def advance (ops : Operands) (pc0 : State) (s : State) : State :=
  { s with pc := BitVec.ofNat 9 (nextAddress ops pc0) }

/-- R14: a jump, call or return loads an 8-bit value, so it lands in 0..255. -/
def jumpTo (target : Byte) (s : State) : State :=
  { s with pc := target.setWidth 9 }

/-- R94: the code of each cause (the spec's decision D18, log entry 11). -/
def FaultCause.code : FaultCause → Nat
  | .addressOutOfBounds => 1
  | .divideByZero => 2
  | .unsupportedOperation => 3
  | .malformedImage => 4
  | .illegalOperandCount => 5
  | .registerIndexOutOfRange => 6

/-- R94: the cause code of a fault report: 0 means no fault. -/
def faultCode : Option FaultRecord → Nat
  | none => 0
  | some f => f.cause.code

/-- R18: the codes of the halt reasons. -/
def Reason.code : Reason → Nat
  | .none => 0
  | .hlt => 1
  | .fault => 2
  | .stopped => 3

/-- R101: fault entry. `s0` is the state in which the step began, with `pc` = `pc0`: every write of the step is discarded,
and status, reason and the fault record are written. There is no return from it but reset (R104, R114). -/
def enterFault (cause : FaultCause) (info : Nat) (s0 : State) : State :=
  { s0 with status := .halted, reason := .fault, fault := some { cause := cause, pc := s0.pc, info := info } }

/-- R101: `raise E(info)` in the step that began in `s0`. -/
def raiseFault (cause : FaultCause) (info : Nat) (s0 : State) : Result :=
  .next (enterFault cause info s0)

/-- R33: `MemRead(addr, 1)` in state `s` of the step that began in `s0`, continued with the byte read. -/
def memRead (s0 s : State) (addr : Nat) (k : Byte → Result) : Result :=
  if addr > 255 then raiseFault .addressOutOfBounds addr s0 else k (s.mem.read addr)

/-- R34: `MemWrite(addr, 1, v)` in state `s` of the step that began in `s0`, continued in the state after it. -/
def memWrite (s0 s : State) (addr : Nat) (v : Byte) (k : State → Result) : Result :=
  if addr > 255 then raiseFault .addressOutOfBounds addr s0 else k { s with mem := s.mem.write addr v }

/-- R72: `CheckReg(r)` in the step that began in `s0`, continued with the register the byte names. -/
def checkReg (s0 : State) (r : Byte) (k : RegIndex → Result) : Result :=
  if h : r.toNat < 8 then k ⟨r.toNat, h⟩ else raiseFault .registerIndexOutOfRange r.toNat s0

/-- R72, R75: the two register operands, a checked before b. -/
def checkTwoRegs (s0 : State) (ops : Operands) (k : RegIndex → RegIndex → Result) : Result :=
  checkReg s0 ops.slotA fun a => checkReg s0 ops.slotB fun b => k a b

/-- R74: write an ALU result, a mathematical natural number, mod 256 into register `a`, and let the loop advance. -/
def writeAluResult (s0 : State) (ops : Operands) (a : RegIndex) (result : Nat) : Result :=
  .next (advance ops s0 (s0.setReg a (BitVec.ofNat 8 result)))

/-- R85, R88: push a byte: SP is decremented mod 256, then `value` of the state after the decrement is stored at it. -/
def pushByte (s0 : State) (value : State → Byte) (k : State → Result) : Result :=
  let s1 := s0.setSp (s0.sp - 1#8)
  memWrite s0 s1 s1.sp.toNat (value s1) k

/-- R83: `emit Out(v)` (R20). -/
def emitOut (v : Byte) (s : State) : State :=
  { s with out := s.out ++ [v] }

/-- R107: a byte of the trace, ABSENT above address 255; forming it raises nothing. -/
def traceByte (s : State) (addr : Nat) : Option Byte :=
  if addr ≤ 255 then some (s.mem.read addr) else none

/-- R107: the trace record of a state. -/
def traceRecord (s : State) : TraceRecord where
  pc := s.pc
  byte0 := traceByte s s.pc.toNat
  byte1 := traceByte s (s.pc.toNat + 1)
  byte2 := traceByte s (s.pc.toNat + 2)
  regs := s.regs

end Sys2Proof.Machine
end

