-- ==== Sys2Proof/Machine/Alu.lean ====
section
/-! DEFINITION. The meanings of ADD, SUB, MUL, DIV and CMP (41_alu.md). -/

namespace Sys2Proof.Machine

/-- R76: `x[a] <- (x[a] + x[b]) mod 256`. -/
def execAdd (ops : Operands) (s : State) : Result :=
  checkTwoRegs s ops fun a b => writeAluResult s ops a ((s.reg a).toNat + (s.reg b).toNat)

/-- R77: `x[a] <- (x[a] - x[b]) mod 256`; 256 is added first, so that the natural number never falls below 0. -/
def execSub (ops : Operands) (s : State) : Result :=
  checkTwoRegs s ops fun a b => writeAluResult s ops a ((s.reg a).toNat + 256 - (s.reg b).toNat)

/-- R78: `x[a] <- (x[a] * x[b]) mod 256`. -/
def execMul (ops : Operands) (s : State) : Result :=
  checkTwoRegs s ops fun a b => writeAluResult s ops a ((s.reg a).toNat * (s.reg b).toNat)

/-- R79, R96: DivideByZero with the divisor's register index, else the unsigned integer quotient
(the spec's decision D10, log entry 8). -/
def execDiv (ops : Operands) (s : State) : Result :=
  checkTwoRegs s ops fun a b =>
    if (s.reg b).toNat = 0 then raiseFault .divideByZero b.val s
    else writeAluResult s ops a ((s.reg a).toNat / (s.reg b).toNat)

/-- R80: all of `fl` is written, no register is. -/
def execCmp (ops : Operands) (s : State) : Result :=
  checkTwoRegs s ops fun a b => .next (advance ops s { s with fl := compareFlags (s.reg a) (s.reg b) })

end Sys2Proof.Machine
end

