-- ==== Sys2Proof/Machine/Control.lean ====
section
/-! DEFINITION. The meanings of CALL, RET, JMP, JEQ and JNE (44_control_transfer.md). Each writes `pc` itself (R70). -/

namespace Sys2Proof.Machine

/-- R88: the return address is checked before any write; SP is decremented and the address pushed; then `pc <- x[a]`,
read after the SP update (the spec's decisions D13 and D15, log entries 15 and 16). -/
def execCall (ops : Operands) (s : State) : Result :=
  checkReg s ops.slotA fun a =>
    if nextAddress ops s > 255 then raiseFault .addressOutOfBounds (nextAddress ops s) s
    else pushByte s (fun _ => BitVec.ofNat 8 (nextAddress ops s)) fun s2 => .next (jumpTo (s2.reg a) s2)

/-- R89: the latch `ra` receives the byte at SP, SP is incremented, `pc <- ra` (the spec's decision D14, log entry 9). -/
def execRet (_ops : Operands) (s : State) : Result :=
  memRead s s s.sp.toNat fun v =>
    let s1 := { s with ra := v }
    let s2 := s1.setSp (s1.sp + 1#8)
    .next (jumpTo s2.ra s2)

/-- R90: `pc <- x[a]`. -/
def execJmp (ops : Operands) (s : State) : Result :=
  checkReg s ops.slotA fun a => .next (jumpTo (s.reg a) s)

/-- R91: jump when bit E of `fl` is set, else fall through; the target index is checked either way (R72). -/
def execJeq (ops : Operands) (s : State) : Result :=
  checkReg s ops.slotA fun a =>
    if equalFlag s.fl then .next (jumpTo (s.reg a) s) else .next (advance ops s s)

/-- R92: jump when bit E of `fl` is clear, else fall through. -/
def execJne (ops : Operands) (s : State) : Result :=
  checkReg s ops.slotA fun a =>
    if equalFlag s.fl then .next (advance ops s s) else .next (jumpTo (s.reg a) s)

end Sys2Proof.Machine
end

