-- ==== Sys2Proof/Machine/RegisterOutputHalt.lean ====
section
/-! DEFINITION. The meanings of LDI, PRN and HLT (42_register_output_halt.md). -/

namespace Sys2Proof.Machine

/-- R82: `x[a] <- b`, the immediate as it stands. -/
def execLdi (ops : Operands) (s : State) : Result :=
  checkReg s ops.slotA fun a => .next (advance ops s (s.setReg a ops.slotB))

/-- R83: `emit Out(x[a])`. -/
def execPrn (ops : Operands) (s : State) : Result :=
  checkReg s ops.slotA fun a => .next (advance ops s (emitOut (s.reg a) s))

/-- R84: Halted with reason Hlt, then the loop's advance (the spec's decision D16, log entry 10). -/
def execHlt (ops : Operands) (s : State) : Result :=
  .next (advance ops s { s with status := .halted, reason := .hlt })

end Sys2Proof.Machine
end

