-- ==== Sys2Proof/Machine/Stack.lean ====
section
/-! DEFINITION. The meanings of PUSH and POP (43_stack.md), in the literal order of their pseudocode
(the spec's decision D15, log entry 16). -/

namespace Sys2Proof.Machine

/-- R85: SP is decremented, then `x[a]`, read after that, is stored at SP. -/
def execPush (ops : Operands) (s : State) : Result :=
  checkReg s ops.slotA fun a => pushByte s (fun s1 => s1.reg a) fun s2 => .next (advance ops s s2)

/-- R86: `x[a]` receives the byte at SP, then SP, read after that, is incremented. -/
def execPop (ops : Operands) (s : State) : Result :=
  checkReg s ops.slotA fun a =>
    memRead s s s.sp.toNat fun v =>
      let s1 := s.setReg a v
      .next (advance ops s (s1.setSp (s1.sp + 1#8)))

end Sys2Proof.Machine
end

