-- ==== Sys2Proof/Machine/Dispatch.lean ====
section
/-! DEFINITION. The dispatcher: one arm per constructor of Instr, each one call of that instruction's meaning. -/

namespace Sys2Proof.Machine

def exec (i : Instr) (s : State) : Host.Outcome State Fault Refusal :=
  match i with
  | .ldi ops => Sys2Proof.Machine.execLdi ops s
  | .prn ops => Sys2Proof.Machine.execPrn ops s
  | .hlt ops => Sys2Proof.Machine.execHlt ops s
  | .push ops => Sys2Proof.Machine.execPush ops s
  | .pop ops => Sys2Proof.Machine.execPop ops s
  | .call ops => Sys2Proof.Machine.execCall ops s
  | .ret ops => Sys2Proof.Machine.execRet ops s
  | .jmp ops => Sys2Proof.Machine.execJmp ops s
  | .jeq ops => Sys2Proof.Machine.execJeq ops s
  | .jne ops => Sys2Proof.Machine.execJne ops s
  | .add ops => Sys2Proof.Machine.execAdd ops s
  | .sub ops => Sys2Proof.Machine.execSub ops s
  | .mul ops => Sys2Proof.Machine.execMul ops s
  | .div ops => Sys2Proof.Machine.execDiv ops s
  | .cmp ops => Sys2Proof.Machine.execCmp ops s

end Sys2Proof.Machine
end

