-- ==== Sys2Proof/Machine/HostInterface.lean ====
section
/-! DEFINITION. The host's transactions (R23): `load_image` (R61, R98), `run()` (R62), the read accessors (R112), and what a
transaction does in each status. -/

namespace Sys2Proof.Machine

/-- R61, R98: `load_image(bytes)`. Accepted in Ready; an image over 256 bytes halts the CORE with MalformedImage and
leaves memory as it was; outside Ready it is refused with no change (the spec's decisions D8 and D9, log entries 2 and 14). -/
def loadImage (bytes : List Byte) (s : State) : HostReply × State :=
  match s.status with
  | .ready =>
    if bytes.length > 256 then (.malformedImage bytes.length, enterFault .malformedImage bytes.length s)
    else (.imageLoaded, { s with mem := Memory.ofBytes 0 bytes })
  | .running => (.imageRefused, s)
  | .halted => (.imageRefused, s)

/-- R62: `run()` called in Ready starts the Execution Loop. -/
def startLoop (s : State) : State :=
  { s with status := .running }

/-- R62, R102: `run()` returns the recorded outcome once the CORE is Halted. -/
def runReply (s : State) : HostReply :=
  .runReturned s.reason s.fault

/-- R23: the transaction the host makes at this boundary. -/
def hostCall (s : State) : Option HostCall :=
  s.hostCalls.headD none

/-- The state in which this boundary's transaction has been taken from the list. -/
def nextHostCall (s : State) : State :=
  { s with hostCalls := s.hostCalls.tail }

/-- R23: a transaction made while Ready. `load_image` is accepted or raises MalformedImage (R61, R98); `run()` starts the
loop and has not returned yet (R62); with no transaction the CORE stays Ready. -/
def readyTurn (s : State) : State :=
  match hostCall s with
  | none => nextHostCall s
  | some (.loadImage bytes) =>
    { (loadImage bytes s).2 with
      hostCalls := s.hostCalls.tail
      hostReplies := s.hostReplies ++ [(loadImage bytes s).1] }
  | some .run => startLoop { nextHostCall s with runsWaiting := s.runsWaiting + 1 }

/-- R23: what a transaction made while Running returns at once: `load_image` is refused, `run()` has not returned yet. -/
def repliesWhileRunning (s : State) : List HostReply :=
  match hostCall s with
  | none => []
  | some (.loadImage bytes) => [(loadImage bytes s).1]
  | some .run => []

/-- R23, R62: how many `run()` calls a transaction made while Running adds to those that wait for Halted. -/
def runsMadeWhileRunning (s : State) : Nat :=
  match hostCall s with
  | none => 0
  | some (.loadImage _) => 0
  | some .run => 1

/-- R23: a transaction made while Running; it changes no state of the CORE. -/
def serveWhileRunning (s : State) : State :=
  { nextHostCall s with
    hostReplies := s.hostReplies ++ repliesWhileRunning s
    runsWaiting := s.runsWaiting + runsMadeWhileRunning s }

/-- R23, R62: what a transaction made while Halted returns: `load_image` is refused, `run()` returns the recorded outcome. -/
def repliesWhileHalted (s : State) : List HostReply :=
  match hostCall s with
  | none => []
  | some (.loadImage bytes) => [(loadImage bytes s).1]
  | some .run => [runReply s]

/-- R62, R71: the turn of the host of a Halted CORE: every `run()` that waits returns, then the transaction made now is
answered; the CORE stays as it is. -/
def haltedTurn (s : State) : State :=
  { nextHostCall s with
    hostReplies := s.hostReplies ++ (List.replicate s.runsWaiting (runReply s) ++ repliesWhileHalted s)
    runsWaiting := 0 }

/-- R112: what `read_mem` returns: a byte, or the condition it raises to the host and its `info`. -/
inductive ReadReply where
  | byte (v : Byte)
  | raised (cause : FaultCause) (info : Nat)
  deriving DecidableEq, Repr

/-- R112: `read_mem(addr)`: the byte, or AddressOutOfBounds(addr) returned to the host. -/
def readMem (s : State) (addr : Nat) : ReadReply :=
  if addr > 255 then .raised .addressOutOfBounds addr else .byte (s.mem.read addr)

/-- R23: `read_reg(i)`. -/
def readReg (s : State) (r : RegIndex) : Byte :=
  s.reg r

/-- R23: `read_pc()`. -/
def readPc (s : State) : Pc :=
  s.pc

/-- R23: `read_fl()`. -/
def readFl (s : State) : Byte :=
  s.fl

/-- R23: `read_status()`. -/
def readStatus (s : State) : Status × Reason × Option FaultRecord :=
  (s.status, s.reason, s.fault)

/-- R23: `read_out()`. -/
def readOut (s : State) : List Byte :=
  s.out

end Sys2Proof.Machine
end

