-- ==== Sys2Proof/Machine/Cycle.lean ====
section
/-! DEFINITION. The execution cycle (40_execution_cycle.md): the stop poll, fetch, decode, and what each outcome of the
decoder does. -/

namespace Sys2Proof.Machine

/-- R64: the value `stop_req` has at this boundary. -/
def stopAsserted (s : State) : Bool :=
  s.stopReq.headD false

/-- R21: the boundary's value of `stop_req` is used up; it is not stored. -/
def pollStop (s : State) : State :=
  { s with stopReq := s.stopReq.tail }

/-- R21, R23: the state the loop's step begins in: the boundary's value of `stop_req` is used up and the host's transaction
at the boundary has been served. -/
def boundary (s : State) : State :=
  pollStop (serveWhileRunning s)

/-- R106: the stop request is taken: one trace record, Halted, reason Stopped. -/
def takeStop (s : State) : State :=
  { s with trace := s.trace ++ [traceRecord s], status := .halted, reason := .stopped }

/-- R65: the bytes the fetch and the operand reads find at `pc0`, `pc0+1` and `pc0+2`, as far as they exist. -/
def fetchBytes (s : State) : List Byte :=
  s.mem.bytesFrom s.pc.toNat 3

/-- R57: a word with A = 0 whose opcode names no handler. It writes no state; the loop advances `pc` when P = 0, and
leaves `pc` at `pc0` when P = 1, so that the same word runs again (the spec's decision D23, log entry 18). -/
def runNoop (op : BitVec 5) (ops : Operands) (s : State) : Result :=
  if opcodeSetsPc op then .next s else .next (advance ops s s)

/-- R63: what the outcome of the decoder does. A missing byte is an AddressOutOfBounds at its address (R65). -/
def runDecoded (d : Decoded) (s : State) : Result :=
  match d with
  | .instr i _ => exec i s
  | .noop op ops _ => runNoop op ops s
  | .illegalOperandCount w => raiseFault .illegalOperandCount w.toNat s
  | .missingByte k => raiseFault .addressOutOfBounds (s.pc.toNat + k) s
  | .unsupportedOperation op => raiseFault .unsupportedOperation op.toNat s

/-- R63: one step of the Execution Loop, taken while Running. -/
def loopStep (s : State) : Result :=
  let s0 := boundary s
  if stopAsserted s then .next (takeStop s0) else runDecoded (decode (fetchBytes s0)) s0

/-- R62, R68: a step of the whole machine: the Execution Loop's while Running, the host's otherwise. -/
def machineStep (s : State) : Result :=
  match s.status with
  | .running => loopStep s
  | .ready => .next (readyTurn s)
  | .halted => .next (haltedTurn s)

/-- Place an instruction's bytes where the loop fetches next and make the loop's next step run it: the machine Running,
no stop request at the next boundary, and `pc` moved to 0 where fewer than three bytes are left at it (log entry 17). -/
def placeInstruction (bytes : List Byte) (s : State) : State :=
  let pc := if s.pc.toNat ≤ 253 then s.pc else 0#9
  { s with
    mem := s.mem.writeBytes pc.toNat bytes
    pc := pc
    status := .running
    stopReq := if stopAsserted s then false :: s.stopReq.tail else s.stopReq }

end Sys2Proof.Machine
end

