-- ==== Sys2Proof/Machine/Step.lean ====
section
/-! DEFINITION. The step of the machine, and the placing of one instruction where it fetches next. -/

namespace Sys2Proof.Machine

/-- R62, R63: one step. -/
def step (s : State) : Host.Outcome State Fault Refusal :=
  machineStep s

/-- The state with an instruction, numbered as spec/opcode_table.json numbers its bits, stored where the next step fetches. -/
def State.withFetchWord (s : State) (nbits w : Nat) : State :=
  placeInstruction (tableBytes nbits w) s

end Sys2Proof.Machine
end

