-- ==== Sys2Proof/Safety.lean ====
section
/-! DEFINITION. The terms the statements use: when a step executes an instruction, the state a fault leaves, the machine's
invariant, the order of fault priority, and what a safe run is. -/

namespace Sys2Proof.Machine

/-- R63, R64: the next step is the Execution Loop's and takes no stop request. -/
abbrev Executes (s : State) : Prop :=
  s.status = .running ∧ stopAsserted s = false

/-- R69: the instruction at `pc` with these operands ends at an address of memory, as decoding it has established. -/
abbrev Fits (ops : Operands) (s : State) : Prop :=
  s.pc.toNat + ops.count ≤ 255

/-- R101, R121: the state before the step with exactly the three fields of fault entry written. -/
abbrev faultState (cause : FaultCause) (info : Nat) (s : State) : State :=
  { s with status := .halted, reason := .fault, fault := some { cause := cause, pc := s.pc, info := info } }

/-- The lifecycle fields are as before, or a fatal condition of the instruction at `s.pc` was recorded. -/
def KeepsOrFaults (s t : State) : Prop :=
  (t.status = s.status ∧ t.reason = s.reason ∧ t.fault = s.fault) ∨
    ∃ cause info, t.status = .halted ∧ t.reason = .fault ∧ t.fault = some { cause := cause, pc := s.pc, info := info }

/-- The channels to the host that only PRN, a stop and the host itself use are as before. -/
def KeepsHostSide (s t : State) : Prop :=
  t.trace = s.trace ∧ t.stopReq = s.stopReq ∧ t.hostCalls = s.hostCalls ∧ t.hostReplies = s.hostReplies ∧
    t.runsWaiting = s.runsWaiting

/-- The encoding of an instruction whose word with N = 0 is `key` (R47, R50, R53): with every legal N its bytes decode to
it, slots past N reading as 0, and what follows its operand bytes is left over. -/
def DecodesAs (key : Byte) (mk : Operands → Instr) : Prop :=
  ∀ (a b : Byte) (rest : List Byte),
    decode (key :: rest) = .instr (mk .zero) rest ∧
    decode ((key ||| 0x40#8) :: a :: rest) = .instr (mk (.one a)) rest ∧
    decode ((key ||| 0x80#8) :: a :: b :: rest) = .instr (mk (.two a b)) rest

/-- The fatal conditions of fetching an instruction whose word with N = 0 is `key`: IllegalOperandCount with N = 3, and
AddressOutOfBounds(256) when an operand byte lies past address 255. -/
def FaultsWhileDecoding (key : Byte) : Prop :=
  ∀ s : State, Executes s →
    (s.pc.toNat ≤ 255 → s.mem.read s.pc.toNat = key ||| 0xC0#8 →
      step s = .next (faultState .illegalOperandCount (key ||| 0xC0#8).toNat (boundary s))) ∧
    (s.pc = 255#9 → s.mem.read 255 = key ||| 0x40#8 ∨ s.mem.read 255 = key ||| 0x80#8 →
      step s = .next (faultState .addressOutOfBounds 256 (boundary s))) ∧
    (s.pc = 254#9 → s.mem.read 254 = key ||| 0x80#8 →
      step s = .next (faultState .addressOutOfBounds 256 (boundary s)))

/-- R72: register operand a above 7 raises RegisterIndexOutOfRange with that byte, before any effect. -/
def ChecksA (mk : Operands → Instr) : Prop :=
  ∀ (ops : Operands) (s : State), 7 < ops.slotA.toNat →
    exec (mk ops) s = .next (faultState .registerIndexOutOfRange ops.slotA.toNat s)

/-- R72: register operand b above 7 does the same once operand a has passed. -/
def ChecksB (mk : Operands → Instr) : Prop :=
  ∀ (ops : Operands) (s : State), ops.slotA.toNat ≤ 7 → 7 < ops.slotB.toNat →
    exec (mk ops) s = .next (faultState .registerIndexOutOfRange ops.slotB.toNat s)

/-- R94, R95, R98: the `info` a fault record may hold for its cause. -/
def FaultRecord.Legal (f : FaultRecord) : Prop :=
  match f.cause with
  | .addressOutOfBounds => f.info = 256
  | .divideByZero => f.info ≤ 7
  | .unsupportedOperation => f.info ≤ 31 ∧ f.info ∉ [0, 1, 2, 3, 7]
  | .malformedImage => 256 < f.info ∧ f.pc = 0#9
  | .illegalOperandCount => 192 ≤ f.info ∧ f.info ≤ 255
  | .registerIndexOutOfRange => 8 ≤ f.info ∧ f.info ≤ 255

/-- The machine's invariant: what holds at reset and after every step. -/
structure State.Inv (s : State) : Prop where
  /-- Memory is in its canonical form, inside addresses 0..255 (R32). -/
  mem_wf : s.mem.wf = true
  /-- R14: the reachable values of `pc` are 0..256. -/
  pc_le : s.pc.toNat ≤ 256
  /-- R13: `fl` is 0x00, 0x01, 0x02 or 0x04. -/
  fl_legal : legalFlags s.fl = true
  /-- R17, R61: in Ready no instruction has run; only memory may have been loaded. No `run()` waits (R62). -/
  ready_fresh : s.status = .ready →
    s.regs = State.reset.regs ∧ s.fl = 0x00#8 ∧ s.pc = 0#9 ∧ s.ra = 0x00#8 ∧ s.out = [] ∧
      s.runsWaiting = 0
  /-- R18: a halt reason is recorded exactly when the CORE is Halted. -/
  reason_none : s.reason = .none ↔ s.status ≠ .halted
  /-- R19, R106: a fault record exists exactly when the reason is Fault. -/
  fault_recorded : s.fault.isSome = true ↔ s.reason = .fault
  /-- R101, R94: the record names the `pc` the CORE still holds, and its `info` is one its cause can have. -/
  fault_legal : ∀ f, s.fault = some f → f.pc = s.pc ∧ f.Legal
  /-- R22, R31, R106: one trace record, of the state the stop left, exactly when the reason is Stopped. -/
  trace_one : s.trace = if s.reason = .stopped then [traceRecord s] else []

/-- R103: the fatal conditions the instruction at `pc` may meet, in the order of priority, each with the cause and `info`
it is reported with. Written from the bytes of memory by arithmetic, without the decoder. -/
def faultConditions (s : State) : List (Bool × FaultCause × Nat) :=
  let pc0 := s.pc.toNat
  let w := (s.mem.read pc0).toNat
  let n := w / 64
  let alu := w / 32 % 2 = 1
  let op := w % 32
  let a := if n ≥ 1 then (s.mem.read (pc0 + 1)).toNat else 0
  let b := if n ≥ 2 then (s.mem.read (pc0 + 2)).toNat else 0
  let aluOp := alu ∧ op ∈ [0, 1, 2, 3, 7]
  let handlerWithReg := ¬ alu ∧ op ∈ [2, 5, 6, 7, 16, 20, 21, 22]
  [ (decide (pc0 > 255), .addressOutOfBounds, pc0),
    (decide (n = 3), .illegalOperandCount, w),
    (decide (n ≥ 1 ∧ pc0 + 1 > 255), .addressOutOfBounds, pc0 + 1),
    (decide (n ≥ 2 ∧ pc0 + 2 > 255), .addressOutOfBounds, pc0 + 2),
    (decide (alu ∧ op ∉ [0, 1, 2, 3, 7]), .unsupportedOperation, op),
    (decide ((aluOp ∨ handlerWithReg) ∧ a > 7), .registerIndexOutOfRange, a),
    (decide (aluOp ∧ b > 7), .registerIndexOutOfRange, b),
    (decide (alu ∧ op = 3 ∧ s.reg (Fin.ofNat 8 b) = 0x00#8), .divideByZero, b),
    (decide (¬ alu ∧ op = 16 ∧ pc0 + n + 1 > 255), .addressOutOfBounds, pc0 + n + 1) ]

/-- R103: the first of them that holds. -/
def firstFault (s : State) : Option (FaultCause × Nat) :=
  ((faultConditions s).find? fun c => c.1).map fun c => c.2

/-- A run of `k` steps is safe when no state it passes through has recorded a fatal condition (R94 to R101). -/
def SafeRun (k : Nat) (s : State) : Prop :=
  ∀ j t, j ≤ k → Sys2Proof.core.run j s = .next t → t.reason ≠ .fault

end Sys2Proof.Machine
end

