-- ==== Sys2Proof/Certificates/Slice0/Obligations.lean ====
section
/-! DEFINITION. The statements about the model, for the provers. Each docstring names the rule of spec/ it formalises, and
where a clause rests on a decision the spec marks as its own (92_eei_decisions.md), it says which. -/

open Sys2Proof Sys2Proof.Machine

/-! ## Encoding -/

/-- Sections 1 to 3 of 30_encoding.md: no bit of an encoding is dropped. Every instruction, with every operand byte
and every legal operand count, well-formed or not, is read back from its bytes, and the bytes after it are left over.
-/
def Obligations.EncodeThenDecodeReturnsTheInstruction : Prop :=
  ∀ (i : Instr) (rest : List Byte), decode (encode i ++ rest) = .instr i rest

/-- The other direction: a list of bytes that decodes to an instruction starts with that instruction's one encoding.
-/
def Obligations.DecodedInstructionReencodesToItsBytes : Prop :=
  ∀ (bytes rest : List Byte) (i : Instr), decode bytes = .instr i rest → bytes = encode i ++ rest

/-- R53: the assigned opcodes. Each row's (A, op), with every legal operand count, decodes to its instruction, and its
sets-PC flag is the one the table gives. -/
def Obligations.AssignedOpcodesDecode : Prop :=
  (DecodesAs 0b00000001#8 .hlt ∧ setsPcFlag 0b00000001#8 = false) ∧
  (DecodesAs 0b00000010#8 .ldi ∧ setsPcFlag 0b00000010#8 = false) ∧
  (DecodesAs 0b00000101#8 .push ∧ setsPcFlag 0b00000101#8 = false) ∧
  (DecodesAs 0b00000110#8 .pop ∧ setsPcFlag 0b00000110#8 = false) ∧
  (DecodesAs 0b00000111#8 .prn ∧ setsPcFlag 0b00000111#8 = false) ∧
  (DecodesAs 0b00010000#8 .call ∧ setsPcFlag 0b00010000#8 = true) ∧
  (DecodesAs 0b00010001#8 .ret ∧ setsPcFlag 0b00010001#8 = true) ∧
  (DecodesAs 0b00010100#8 .jmp ∧ setsPcFlag 0b00010100#8 = true) ∧
  (DecodesAs 0b00010101#8 .jeq ∧ setsPcFlag 0b00010101#8 = true) ∧
  (DecodesAs 0b00010110#8 .jne ∧ setsPcFlag 0b00010110#8 = true) ∧
  (DecodesAs 0b00100000#8 .add ∧ setsPcFlag 0b00100000#8 = false) ∧
  (DecodesAs 0b00100001#8 .sub ∧ setsPcFlag 0b00100001#8 = false) ∧
  (DecodesAs 0b00100010#8 .mul ∧ setsPcFlag 0b00100010#8 = false) ∧
  (DecodesAs 0b00100011#8 .div ∧ setsPcFlag 0b00100011#8 = false) ∧
  (DecodesAs 0b00100111#8 .cmp ∧ setsPcFlag 0b00100111#8 = false)

/-- Section 3 of 30_encoding.md: one canonical encoding of each family, written out from the spec's table of canonical
words (which the spec derives, decision D28), decodes to the instruction it stands for. -/
def Obligations.CanonicalWordsDecode : Prop :=
  decode [0x82#8, 0x00#8, 0x08#8] = .instr (.ldi (.two 0x00#8 0x08#8)) [] ∧
  decode [0x47#8, 0x03#8] = .instr (.prn (.one 0x03#8)) [] ∧
  decode [0x01#8] = .instr (.hlt .zero) [] ∧
  decode [0x45#8, 0x07#8] = .instr (.push (.one 0x07#8)) [] ∧
  decode [0x46#8, 0x01#8] = .instr (.pop (.one 0x01#8)) [] ∧
  decode [0x50#8, 0x01#8] = .instr (.call (.one 0x01#8)) [] ∧
  decode [0x11#8] = .instr (.ret .zero) [] ∧
  decode [0xA3#8, 0x00#8, 0x01#8] = .instr (.div (.two 0x00#8 0x01#8)) []

/-- Section 1 of 30_encoding.md: the four fields of an instruction word. -/
def Obligations.InstructionWordFields : Prop :=
  ∀ w : Byte,
    (operandCountField w).toNat = w.toNat / 64 ∧
    (aluFlag w = true ↔ w.toNat / 32 % 2 = 1) ∧
    (setsPcFlag w = true ↔ w.toNat / 16 % 2 = 1) ∧
    (opcodeField w).toNat = w.toNat % 32

/-- R52: dispatch is keyed on (A, op) alone. Bits 7:6 say only how many operand bytes follow (N = 3, which dispatches
nothing, is `OperandCountThreeFaults`); two words that agree in bits 5:0 select the same instruction or outcome, for
the same operands, whatever their operand counts; and A decides between the ALU sub-opcodes and the handler table. -/
def Obligations.DispatchIsKeyedOnAluFlagAndOpcode : Prop :=
  (∀ (w a b : Byte) (rest : List Byte),
    (operandCountField w = 0#2 → decode (w :: rest) = selectInstr w .zero rest) ∧
    (operandCountField w = 1#2 → decode (w :: a :: rest) = selectInstr w (.one a) rest) ∧
    (operandCountField w = 2#2 → decode (w :: a :: b :: rest) = selectInstr w (.two a b) rest)) ∧
  (∀ (w w' : Byte) (ops : Operands) (rest : List Byte),
    w &&& 0x3F#8 = w' &&& 0x3F#8 → selectInstr w ops rest = selectInstr w' ops rest) ∧
  (∀ (w : Byte) (ops : Operands) (rest : List Byte) (i : Instr), aluFlag w = true →
    (selectInstr w ops rest = .instr i rest ↔
      (opcodeField w = 0#5 ∧ i = .add ops) ∨ (opcodeField w = 1#5 ∧ i = .sub ops) ∨ (opcodeField w = 2#5 ∧ i = .mul ops) ∨
      (opcodeField w = 3#5 ∧ i = .div ops) ∨ (opcodeField w = 7#5 ∧ i = .cmp ops))) ∧
  (∀ (w : Byte) (ops : Operands) (rest : List Byte) (i : Instr), aluFlag w = false →
    (selectInstr w ops rest = .instr i rest ↔
      (opcodeField w = 1#5 ∧ i = .hlt ops) ∨ (opcodeField w = 2#5 ∧ i = .ldi ops) ∨ (opcodeField w = 5#5 ∧ i = .push ops) ∨
      (opcodeField w = 6#5 ∧ i = .pop ops) ∨ (opcodeField w = 7#5 ∧ i = .prn ops) ∨ (opcodeField w = 16#5 ∧ i = .call ops) ∨
      (opcodeField w = 17#5 ∧ i = .ret ops) ∨ (opcodeField w = 20#5 ∧ i = .jmp ops) ∨ (opcodeField w = 21#5 ∧ i = .jeq ops) ∨
      (opcodeField w = 22#5 ∧ i = .jne ops)))

/-! ## The step -/

/-- Section 2 of 40_execution_cycle.md: a step that takes no stop request runs the instruction its bytes decode to;
around exec it only passes the boundary, which uses up the boundary's value of `stop_req` and serves the host's
transaction made there (log entries 12 and 13), and changes nothing of the CORE. The instruction advances `pc` itself.
-/
def Obligations.StepRunsTheDecodedInstruction : Prop :=
  ∀ (s : State) (i : Instr) (rest : List Byte), Executes s → decode (fetchBytes s) = .instr i rest →
    step s = exec i (boundary s) ∧
    boundary s = { s with
      stopReq := s.stopReq.tail, hostCalls := s.hostCalls.tail, hostReplies := (boundary s).hostReplies,
      runsWaiting := (boundary s).runsWaiting }

/-- Section 2 of 40_execution_cycle.md: the fetch raises AddressOutOfBounds(pc0) at `pc0` = 256, an operand read at
the first address past 255; otherwise the word at `pc0` is decoded with the N operand bytes after it. -/
def Obligations.FetchReadsTheWordThenItsOperandBytes : Prop :=
  ∀ s : State, Executes s →
    (s.pc = 256#9 → step s = .next (faultState .addressOutOfBounds 256 (boundary s))) ∧
    (s.pc = 255#9 → operandCountField (s.mem.read 255) = 1#2 ∨ operandCountField (s.mem.read 255) = 2#2 →
      step s = .next (faultState .addressOutOfBounds 256 (boundary s))) ∧
    (s.pc = 254#9 → operandCountField (s.mem.read 254) = 2#2 →
      step s = .next (faultState .addressOutOfBounds 256 (boundary s))) ∧
    (s.pc.toNat ≤ 255 → operandCountField (s.mem.read s.pc.toNat) = 0#2 →
      ∃ rest, step s = runDecoded (selectInstr (s.mem.read s.pc.toNat) .zero rest) (boundary s)) ∧
    (s.pc.toNat ≤ 254 → operandCountField (s.mem.read s.pc.toNat) = 1#2 →
      ∃ rest, step s = runDecoded
        (selectInstr (s.mem.read s.pc.toNat) (.one (s.mem.read (s.pc.toNat + 1))) rest) (boundary s)) ∧
    (s.pc.toNat ≤ 253 → operandCountField (s.mem.read s.pc.toNat) = 2#2 →
      ∃ rest, step s = runDecoded
        (selectInstr (s.mem.read s.pc.toNat) (.two (s.mem.read (s.pc.toNat + 1)) (s.mem.read (s.pc.toNat + 2))) rest)
        (boundary s))

/-- Section 1 of 30_encoding.md (the spec's own decision D12, log entry 1): a word with N = 3 raises
IllegalOperandCount with the word, before any operand byte is read, so also where the operand bytes would lie past
address 255. -/
def Obligations.OperandCountThreeFaults : Prop :=
  ∀ s : State, Executes s → s.pc.toNat ≤ 255 → operandCountField (s.mem.read s.pc.toNat) = 3#2 →
    step s = .next (faultState .illegalOperandCount (s.mem.read s.pc.toNat).toNat (boundary s))

/-- R55, R81, R97: an ALU-class word whose opcode is one of the 27 that name no ALU operation raises
UnsupportedOperation with the opcode, once its operand bytes are read and whatever they are, so before any register
check; with N = 3, or with an operand byte past address 255, the fatal condition of decoding it comes first. -/
def Obligations.UnassignedAluOperationFaults : Prop :=
  (∀ (op : BitVec 5) (ops : Operands),
    aluInstr op ops = none ↔ op.toNat = 4 ∨ op.toNat = 5 ∨ op.toNat = 6 ∨ 8 ≤ op.toNat) ∧
  (∀ s : State, Executes s →
    let w := s.mem.read s.pc.toNat
    s.pc.toNat + (operandCountField w).toNat ≤ 255 → (operandCountField w).toNat ≤ 2 → aluFlag w = true →
    (opcodeField w).toNat ∉ [0, 1, 2, 3, 7] →
      step s = .next (faultState .unsupportedOperation (opcodeField w).toNat (boundary s))) ∧
  (∀ key : Byte, operandCountField key = 0#2 → aluFlag key = true → (opcodeField key).toNat ∉ [0, 1, 2, 3, 7] →
    FaultsWhileDecoding key)

/-- Section 4 of 30_encoding.md (the spec's own decision D23, log entry 18): a word with A = 0 whose opcode names no
handler writes no state; `pc` advances by N + 1 for opcodes 0..15 and stays at `pc0` for opcodes 16..31. -/
def Obligations.UnassignedHandlerWordIsANoop : Prop :=
  ∀ s : State, Executes s →
    let w := s.mem.read s.pc.toNat
    s.pc.toNat + (operandCountField w).toNat ≤ 255 → (operandCountField w).toNat ≤ 2 → aluFlag w = false →
    (opcodeField w).toNat ∉ [1, 2, 5, 6, 7, 16, 17, 20, 21, 22] →
      ∃ t, step s = .next t ∧ t = { boundary s with pc := t.pc } ∧
        t.pc.toNat = if (opcodeField w).toNat ≤ 15 then s.pc.toNat + (operandCountField w).toNat + 1 else s.pc.toNat

/-- Section 2 of 60_exceptions.md, the order of fault priority (the spec's own decisions D11, D12, D13, D17 and D19,
log entries 1, 15 and 19): a step that takes no stop request reports the FIRST fatal condition of `faultConditions`,
which are written from the bytes of memory without the decoder, leaves everything else as it was, and reports none
when none holds. -/
def Obligations.StepReportsTheFirstFaultInPriorityOrder : Prop :=
  ∀ s : State, Executes s →
    ∃ t, step s = .next t ∧
      match firstFault s with
      | some (cause, info) => t = faultState cause info (boundary s)
      | none => t.fault = s.fault ∧ (t.status = .running ∧ t.reason = s.reason ∨ t.status = .halted ∧ t.reason = .hlt)

/-- Section 2 of 40_execution_cycle.md (decisions D17 and D22, log entries 13 and 19): an instruction halts the
machine only by being HLT or by a fatal condition, and a fatal condition leaves the state before the instruction with
only status, reason and fault record written. -/
def Obligations.OnlyHltAndFaultsHalt : Prop :=
  ∀ (i : Instr) (s t : State), exec i s = .next t → s.status = .running → t.status = .halted →
    (∃ ops, i = .hlt ops ∧ t.reason = .hlt ∧ t.fault = s.fault) ∨ ∃ cause info, t = faultState cause info s

/-- Every step of every state, and every instruction in every state, answers a next state: the model stops on nothing.
That every fatal condition of the spec is an entry into a state (section 2 of 60_exceptions.md) and so a next state,
and that a Halted CORE answers a next state too, is the model's choice (log entry 25, DEDUCED); that a step of a Ready
or Halted CORE is the host's turn is the model's choice as well (log entry 13). -/
def Obligations.EveryStepAnswersANextState : Prop :=
  (∀ s : State, ∃ t, step s = .next t) ∧ ∀ (i : Instr) (s : State), ∃ t, exec i s = .next t

/-- Section 4 of 40_execution_cycle.md: Halted is terminal. However many steps follow, only the host's own fields
change (the model's fields of log entry 13) and the CORE stays as it was. The first of them returns from every `run()`
that waited; each transaction made is answered at once; and every answer is a refused `load_image` or a `run()` that
returned the recorded outcome. -/
def Obligations.HaltedIsTerminal : Prop :=
  ∀ (k : Nat) (s : State), s.status = .halted →
    ∃ t replies, Sys2Proof.core.run k s = .next t ∧
      t = { s with
        hostCalls := s.hostCalls.drop k, hostReplies := s.hostReplies ++ replies,
        runsWaiting := if k = 0 then s.runsWaiting else 0 } ∧
      replies.length = (if k = 0 then 0 else s.runsWaiting) + (s.hostCalls.take k).countP Option.isSome ∧
      ∀ r ∈ replies, r = .imageRefused ∨ r = .runReturned s.reason s.fault

/-- Section 2 of 40_execution_cycle.md, the lifecycle (the spec's own decision D22, log entry 13): the transitions of
its table and no others. -/
def Obligations.LifecycleHasNoOtherTransition : Prop :=
  ∀ s t : State, step s = .next t →
    (s.status = .ready →
      (t.status = .ready ∧ t.reason = s.reason ∧
        (hostCall s = none ∨ ∃ bytes, hostCall s = some (.loadImage bytes) ∧ bytes.length ≤ 256)) ∨
      (t.status = .running ∧ t.reason = s.reason ∧ hostCall s = some .run) ∨
      (t.status = .halted ∧ t.reason = .fault ∧
        ∃ bytes, hostCall s = some (.loadImage bytes) ∧ 256 < bytes.length ∧
          t.fault = some { cause := .malformedImage, pc := s.pc, info := bytes.length })) ∧
    (s.status = .running →
      (t.status = .running ∧ t.reason = s.reason ∧ t.fault = s.fault ∧ stopAsserted s = false ∧
        ∀ ops rest, decode (fetchBytes s) ≠ .instr (.hlt ops) rest) ∨
      (t.status = .halted ∧ t.reason = .hlt ∧ stopAsserted s = false ∧
        ∃ ops rest, decode (fetchBytes s) = .instr (.hlt ops) rest) ∨
      (t.status = .halted ∧ t.reason = .fault ∧ t.fault.isSome = true ∧ stopAsserted s = false) ∨
      (t.status = .halted ∧ t.reason = .stopped ∧ stopAsserted s = true)) ∧
    (s.status = .halted → t.status = .halted ∧ t.reason = s.reason ∧ t.fault = s.fault)

/-- Section 3 of 60_exceptions.md (the spec's own decision D20, log entry 12): a stop request asserted at the boundary
is taken before the fetch, whatever lies at `pc`: one trace record with `pc`, the three bytes from `pc` on (absent
above 255) and the eight registers; Halted, reason Stopped; nothing else changes but the host's own fields (log
entries 12 and 13). -/
def Obligations.StopRequestIsTakenBeforeTheFetch : Prop :=
  ∀ s : State, s.status = .running → stopAsserted s = true →
    ∃ record, step s = .next { s with
        stopReq := s.stopReq.tail, hostCalls := s.hostCalls.tail, hostReplies := (boundary s).hostReplies,
        runsWaiting := (boundary s).runsWaiting, trace := s.trace ++ [record], status := .halted, reason := .stopped } ∧
      record.pc = s.pc ∧ record.regs = s.regs ∧
      record.byte0 = (if s.pc.toNat ≤ 255 then some (s.mem.read s.pc.toNat) else none) ∧
      record.byte1 = (if s.pc.toNat + 1 ≤ 255 then some (s.mem.read (s.pc.toNat + 1)) else none) ∧
      record.byte2 = (if s.pc.toNat + 2 ≤ 255 then some (s.mem.read (s.pc.toNat + 2)) else none)

/-- Section 7 of 10_state.md (decision D20, log entry 12): a stop request has no effect while the CORE is Ready or
Halted; the step is the same whatever values `stop_req` will have, and none of them is used up. -/
def Obligations.StopRequestHasNoEffectOutsideRunning : Prop :=
  ∀ (s t : State) (draws : List Bool), s.status ≠ .running → step s = .next t →
    step { s with stopReq := draws } = .next { t with stopReq := draws }

/-- The invariant of the machine (`State.Inv`: canonical memory, `pc` at most 256, legal flags, nothing run in Ready,
and reason, fault record and trace in step with the status), kept by every step from every state that meets it. What
Ready holds rests on the spec's own decisions D3, D4, D5 and D14 (log entries 3, 4, 5 and 9); that the trace records
are kept (log entry 22) and that no `run()` waits in Ready (log entry 13) are about the model's choice of fields. -/
def Obligations.EveryStepKeepsTheInvariant : Prop :=
  ∀ s t : State, s.Inv → step s = .next t → t.Inv

/-- The invariant holds after reset (its clauses on Ready rest on log entries 3, 4, 5, 9, 13 and 22). -/
def Obligations.ResetMeetsTheInvariant : Prop :=
  State.reset.Inv

/-- R29: the stack pointer is 0xF4 after reset. -/
def Obligations.StackPointerResetsToF4 : Prop :=
  State.reset.reg 7 = 0xF4#8

/-- Section 8 of 10_state.md: the other reset values (the spec's own decisions D3, D4, D5, D8, D14 and D22, log
entries 2 to 5 and 9). -/
def Obligations.ResetLeavesTheStatedValues : Prop :=
  (∀ r : RegIndex, r ≠ 7 → State.reset.reg r = 0x00#8) ∧ (∀ a, State.reset.mem.read a = 0x00#8) ∧
  State.reset.fl = 0x00#8 ∧ State.reset.pc = 0#9 ∧ State.reset.ra = 0x00#8 ∧ State.reset.status = .ready ∧
  State.reset.reason = .none ∧ State.reset.fault = none ∧ State.reset.out = [] ∧ State.reset.trace = []

/-! ## The instructions: result, completion and traps -/

/-- R76: ADD. Its encoding and the faults of fetching it; the register-index checks, a before b; and otherwise the sum
mod 256 in register a, with `pc` past the instruction and nothing else changed. -/
def Obligations.AddStoresTheSumMod256 : Prop :=
  DecodesAs 0x20#8 .add ∧ FaultsWhileDecoding 0x20#8 ∧ ChecksA .add ∧ ChecksB .add ∧
  ∀ (ops : Operands) (s : State) (a b : RegIndex), ops.slotA.toNat = a.val → ops.slotB.toNat = b.val → Fits ops s →
    ∃ t, exec (.add ops) s = .next t ∧ (t.reg a).toNat = ((s.reg a).toNat + (s.reg b).toNat) % 256 ∧
      (∀ r, r ≠ a → t.reg r = s.reg r) ∧ t.pc.toNat = s.pc.toNat + ops.count + 1 ∧
      t = { s with regs := t.regs, pc := t.pc }

/-- R77: SUB. As ADD, with the mathematical difference mod 256. -/
def Obligations.SubStoresTheDifferenceMod256 : Prop :=
  DecodesAs 0x21#8 .sub ∧ FaultsWhileDecoding 0x21#8 ∧ ChecksA .sub ∧ ChecksB .sub ∧
  ∀ (ops : Operands) (s : State) (a b : RegIndex), ops.slotA.toNat = a.val → ops.slotB.toNat = b.val → Fits ops s →
    ∃ t, exec (.sub ops) s = .next t ∧ ((t.reg a).toNat : Int) = (((s.reg a).toNat : Int) - (s.reg b).toNat) % 256 ∧
      (∀ r, r ≠ a → t.reg r = s.reg r) ∧ t.pc.toNat = s.pc.toNat + ops.count + 1 ∧
      t = { s with regs := t.regs, pc := t.pc }

/-- R78: MUL. As ADD, with the product mod 256. -/
def Obligations.MulStoresTheProductMod256 : Prop :=
  DecodesAs 0x22#8 .mul ∧ FaultsWhileDecoding 0x22#8 ∧ ChecksA .mul ∧ ChecksB .mul ∧
  ∀ (ops : Operands) (s : State) (a b : RegIndex), ops.slotA.toNat = a.val → ops.slotB.toNat = b.val → Fits ops s →
    ∃ t, exec (.mul ops) s = .next t ∧ (t.reg a).toNat = ((s.reg a).toNat * (s.reg b).toNat) % 256 ∧
      (∀ r, r ≠ a → t.reg r = s.reg r) ∧ t.pc.toNat = s.pc.toNat + ops.count + 1 ∧
      t = { s with regs := t.regs, pc := t.pc }

/-- Section 2 of 41_alu.md, DIV (the integer quotient is the spec's own decision D10, log entry 8): for a nonzero
divisor the quotient, remainder discarded, is the number q with q * divisor ≤ dividend < (q + 1) * divisor. -/
def Obligations.DivStoresTheIntegerQuotient : Prop :=
  ∀ (ops : Operands) (s : State) (a b : RegIndex), ops.slotA.toNat = a.val → ops.slotB.toNat = b.val → Fits ops s →
    s.reg b ≠ 0x00#8 →
    ∃ t, exec (.div ops) s = .next t ∧
      (t.reg a).toNat * (s.reg b).toNat ≤ (s.reg a).toNat ∧ (s.reg a).toNat < ((t.reg a).toNat + 1) * (s.reg b).toNat ∧
      (∀ r, r ≠ a → t.reg r = s.reg r) ∧ t.pc.toNat = s.pc.toNat + ops.count + 1 ∧
      t = { s with regs := t.regs, pc := t.pc }

/-- R96: DIV by a register that holds 0 raises DivideByZero with the divisor's index; the dividend register, like
everything but the three fields of fault entry, keeps its value. Both register indices pass CheckReg first. -/
def Obligations.DivideByZeroFaults : Prop :=
  ChecksA .div ∧ ChecksB .div ∧
  ∀ (ops : Operands) (s : State) (a b : RegIndex), ops.slotA.toNat = a.val → ops.slotB.toNat = b.val →
    s.reg b = 0x00#8 → exec (.div ops) s = .next (faultState .divideByZero b.val s)

/-- Section 2 of 41_alu.md, CMP (bit places and unsigned order are the spec's own decisions D6 and D7, log entries 6
and 7): L is bit 2, G bit 1, E bit 0, exactly one of them set, bits 7:3 cleared; no register is written. -/
def Obligations.CmpSetsExactlyOneFlag : Prop :=
  ∀ (ops : Operands) (s : State) (a b : RegIndex), ops.slotA.toNat = a.val → ops.slotB.toNat = b.val → Fits ops s →
    ∃ t, exec (.cmp ops) s = .next t ∧
      (t.fl.getLsbD 2 = true ↔ (s.reg a).toNat < (s.reg b).toNat) ∧
      (t.fl.getLsbD 1 = true ↔ (s.reg a).toNat > (s.reg b).toNat) ∧
      (t.fl.getLsbD 0 = true ↔ s.reg a = s.reg b) ∧ t.fl.toNat < 8 ∧
      t.pc.toNat = s.pc.toNat + ops.count + 1 ∧ t = { s with fl := t.fl, pc := t.pc }

/-- R82: LDI. Its encoding and the faults of fetching it; the register-index check; and otherwise the immediate,
unchanged, in register a (SP included), 0 where N does not cover slot b. -/
def Obligations.LdiStoresTheImmediate : Prop :=
  DecodesAs 0x02#8 .ldi ∧ FaultsWhileDecoding 0x02#8 ∧ ChecksA .ldi ∧
  ∀ (ops : Operands) (s : State) (a : RegIndex), ops.slotA.toNat = a.val → Fits ops s →
    ∃ t, exec (.ldi ops) s = .next t ∧
      t.reg a = (match ops with | .zero => 0x00#8 | .one _ => 0x00#8 | .two _ b => b) ∧
      (∀ r, r ≠ a → t.reg r = s.reg r) ∧ t.pc.toNat = s.pc.toNat + ops.count + 1 ∧
      t = { s with regs := t.regs, pc := t.pc }

/-- 42_register_output_halt.md, PRN (that the byte itself is handed over is the spec's own decision D21, log entry
22): the register's byte is appended to the output, and nothing but that and `pc` changes. -/
def Obligations.PrnEmitsTheRegister : Prop :=
  ∀ (ops : Operands) (s : State) (a : RegIndex), ops.slotA.toNat = a.val → Fits ops s →
    ∃ t, exec (.prn ops) s = .next t ∧ t.out = s.out ++ [s.reg a] ∧ t.pc.toNat = s.pc.toNat + ops.count + 1 ∧
      t = { s with out := t.out, pc := t.pc }

/-- 42_register_output_halt.md, HLT (that `pc` advances past it is the spec's own decision D16, log entry 10): Halted
with reason Hlt; no register, memory cell or flag changes; its operand bytes are not checked. -/
def Obligations.HltHaltsAndAdvances : Prop :=
  ∀ (ops : Operands) (s : State), Fits ops s →
    ∃ t, exec (.hlt ops) s = .next t ∧ t.status = .halted ∧ t.reason = .hlt ∧
      t.pc.toNat = s.pc.toNat + ops.count + 1 ∧ t = { s with status := t.status, reason := t.reason, pc := t.pc }

/-- 43_stack.md, PUSH (the order for PUSH R7 and the wrap of SP are the spec's own decisions D15 and D24, log entry
16): SP is decremented mod 256 and the byte at the new SP becomes the register's value, for R7 the decremented SP. -/
def Obligations.PushStoresBelowTheStackPointer : Prop :=
  ∀ (ops : Operands) (s : State) (a : RegIndex), ops.slotA.toNat = a.val → Fits ops s →
    ∃ t, exec (.push ops) s = .next t ∧ (t.reg 7).toNat = ((s.reg 7).toNat + 255) % 256 ∧
      (∀ r, r ≠ 7 → t.reg r = s.reg r) ∧
      t.mem.read (t.reg 7).toNat = (if a = 7 then t.reg 7 else s.reg a) ∧
      (∀ addr, addr ≠ (t.reg 7).toNat → t.mem.read addr = s.mem.read addr) ∧
      t.pc.toNat = s.pc.toNat + ops.count + 1 ∧ t = { s with regs := t.regs, mem := t.mem, pc := t.pc }

/-- 43_stack.md, POP (decisions D15 and D24, log entry 16): the register receives the byte at SP and SP is incremented
mod 256; POP R7 leaves the byte read plus one; memory is unchanged. -/
def Obligations.PopLoadsFromTheStackPointer : Prop :=
  ∀ (ops : Operands) (s : State) (a : RegIndex), ops.slotA.toNat = a.val → Fits ops s →
    ∃ t, exec (.pop ops) s = .next t ∧
      (a ≠ 7 → t.reg a = s.mem.read (s.reg 7).toNat ∧ (t.reg 7).toNat = ((s.reg 7).toNat + 1) % 256) ∧
      (a = 7 → (t.reg 7).toNat = ((s.mem.read (s.reg 7).toNat).toNat + 1) % 256) ∧
      (∀ r, r ≠ a → r ≠ 7 → t.reg r = s.reg r) ∧
      t.pc.toNat = s.pc.toNat + ops.count + 1 ∧ t = { s with regs := t.regs, pc := t.pc }

/-- 44_control_transfer.md, CALL (the return address and the order are the spec's own decisions D13 and D15, log
entries 15 and 16): the address after the instruction is pushed, and `pc` becomes the register's value, for R7 the
decremented SP. -/
def Obligations.CallPushesTheReturnAddressAndJumps : Prop :=
  ∀ (ops : Operands) (s : State) (a : RegIndex), ops.slotA.toNat = a.val → s.pc.toNat + ops.count + 1 ≤ 255 →
    ∃ t, exec (.call ops) s = .next t ∧ (t.reg 7).toNat = ((s.reg 7).toNat + 255) % 256 ∧
      (∀ r, r ≠ 7 → t.reg r = s.reg r) ∧
      (t.mem.read (t.reg 7).toNat).toNat = s.pc.toNat + ops.count + 1 ∧
      (∀ addr, addr ≠ (t.reg 7).toNat → t.mem.read addr = s.mem.read addr) ∧
      t.pc.toNat = (if a = 7 then t.reg 7 else s.reg a).toNat ∧ t = { s with regs := t.regs, mem := t.mem, pc := t.pc }

/-- 44_control_transfer.md, CALL (the spec's own decision D13, log entry 15): a CALL whose return address is 256
raises AddressOutOfBounds(256) before any write. -/
def Obligations.CallWithReturnAddress256Faults : Prop :=
  ∀ (ops : Operands) (s : State) (a : RegIndex), ops.slotA.toNat = a.val → s.pc.toNat + ops.count + 1 = 256 →
    exec (.call ops) s = .next (faultState .addressOutOfBounds 256 s)

/-- 44_control_transfer.md, RET (the latch `ra` is the spec's own decision D14, log entry 9): the latch and `pc`
receive the byte at SP, SP is incremented mod 256, and no other register and no memory changes. It completes on every
state. -/
def Obligations.RetPopsIntoTheLatchAndJumps : Prop :=
  ∀ (ops : Operands) (s : State),
    ∃ t, exec (.ret ops) s = .next t ∧ t.ra = s.mem.read (s.reg 7).toNat ∧
      t.pc.toNat = (s.mem.read (s.reg 7).toNat).toNat ∧ (t.reg 7).toNat = ((s.reg 7).toNat + 1) % 256 ∧
      (∀ r, r ≠ 7 → t.reg r = s.reg r) ∧ t = { s with regs := t.regs, ra := t.ra, pc := t.pc }

/-- R90: JMP. Its encoding and the faults of fetching it, the register-index check, and otherwise the jump to the
register's value. -/
def Obligations.JmpJumpsToTheRegister : Prop :=
  DecodesAs 0x14#8 .jmp ∧ FaultsWhileDecoding 0x14#8 ∧ ChecksA .jmp ∧
  ∀ (ops : Operands) (s : State) (a : RegIndex), ops.slotA.toNat = a.val →
    ∃ t, exec (.jmp ops) s = .next t ∧ t.pc.toNat = (s.reg a).toNat ∧ t = { s with pc := t.pc }

/-- 44_control_transfer.md, JEQ and JNE (that E is bit 0 is the spec's own decision D6, log entry 6): JEQ jumps when
bit 0 of `fl` is set and falls through otherwise; JNE does the opposite with the same `fl`. -/
def Obligations.JeqAndJneTestTheEqualFlag : Prop :=
  ∀ (ops : Operands) (s : State) (a : RegIndex), ops.slotA.toNat = a.val → Fits ops s →
    (∃ t, exec (.jeq ops) s = .next t ∧ t = { s with pc := t.pc } ∧
      t.pc.toNat = if s.fl.getLsbD 0 = true then (s.reg a).toNat else s.pc.toNat + ops.count + 1) ∧
    (∃ t, exec (.jne ops) s = .next t ∧ t = { s with pc := t.pc } ∧
      t.pc.toNat = if s.fl.getLsbD 0 = true then s.pc.toNat + ops.count + 1 else (s.reg a).toNat)

/-- Section 4 of 40_execution_cycle.md, CheckReg (the spec's own decision D11, log entry 1): for EVERY instruction, a
register-index slot above 7 raises RegisterIndexOutOfRange with that byte before any effect, a before b, taken or not,
in every mode; and an instruction whose register-index slots all name registers never records that cause. -/
def Obligations.RegisterIndexAboveSevenFaults : Prop :=
  ∀ (i : Instr) (s : State),
    (i.slotAOk = false → exec i s = .next (faultState .registerIndexOutOfRange i.operands.slotA.toNat s)) ∧
    (i.slotAOk = true → i.slotBOk = false →
      exec i s = .next (faultState .registerIndexOutOfRange i.operands.slotB.toNat s)) ∧
    (i.wf = true → ∀ t, exec i s = .next t →
      t.fault = s.fault ∨ ∃ f, t.fault = some f ∧ f.cause ≠ .registerIndexOutOfRange)

/-! ## Frames -/

/-- The table of register writers in section 2 of 10_state.md: LDI, ADD, SUB, MUL and DIV change no register but the
one operand a names, no flag, no latch, no byte of memory, no output; the lifecycle fields change only by a fatal
condition. -/
def Obligations.FrameOfRegisterWriters : Prop :=
  ∀ (i : Instr) (s t : State), exec i s = .next t →
    (match i with | .ldi _ => True | .add _ => True | .sub _ => True | .mul _ => True | .div _ => True | _ => False) →
    (∀ r : RegIndex, r.val ≠ i.operands.slotA.toNat → t.reg r = s.reg r) ∧ t.fl = s.fl ∧ t.ra = s.ra ∧
    (∀ a, t.mem.read a = s.mem.read a) ∧ t.out = s.out ∧ KeepsHostSide s t ∧ KeepsOrFaults s t

/-- The same table: PRN, HLT, CMP, JMP, JEQ and JNE change no register, no latch and no byte of memory; only CMP
changes the flags, only PRN the output, and only HLT and fatal conditions the lifecycle fields. -/
def Obligations.FrameOfInstructionsThatWriteNoRegister : Prop :=
  ∀ (i : Instr) (s t : State), exec i s = .next t →
    (match i with
      | .prn _ => True | .hlt _ => True | .cmp _ => True | .jmp _ => True | .jeq _ => True | .jne _ => True | _ => False) →
    t.regs = s.regs ∧ t.ra = s.ra ∧ (∀ a, t.mem.read a = s.mem.read a) ∧ KeepsHostSide s t ∧
    ((∀ ops, i ≠ .cmp ops) → t.fl = s.fl) ∧ ((∀ ops, i ≠ .prn ops) → t.out = s.out) ∧
    ((∀ ops, i ≠ .hlt ops) → KeepsOrFaults s t) ∧ (∀ ops, i = .hlt ops → t.fault = s.fault)

/-- The same table and the access table of 20_memory.md: PUSH and CALL change no register but SP and no byte of memory
but the one at the decremented SP, and on a fatal condition not that one either. -/
def Obligations.FrameOfStackWriters : Prop :=
  ∀ (i : Instr) (s t : State), exec i s = .next t → (∃ ops, i = .push ops ∨ i = .call ops) →
    (∀ r : RegIndex, r ≠ 7 → t.reg r = s.reg r) ∧ t.fl = s.fl ∧ t.ra = s.ra ∧ t.out = s.out ∧
    (∀ a, a ≠ (s.reg 7 - 1#8).toNat → t.mem.read a = s.mem.read a) ∧ KeepsHostSide s t ∧ KeepsOrFaults s t ∧
    (t.fault ≠ s.fault → t.regs = s.regs ∧ t.mem = s.mem ∧ t.pc = s.pc)

/-- The same tables: POP changes no register but SP and its destination, RET none but SP and the latch; neither
changes a byte of memory (the popped cell is not cleared). -/
def Obligations.FrameOfStackReaders : Prop :=
  ∀ (i : Instr) (s t : State), exec i s = .next t → (∃ ops, i = .pop ops ∨ i = .ret ops) →
    (∀ r : RegIndex, r ≠ 7 → (∀ ops, i = .pop ops → r.val ≠ ops.slotA.toNat) → t.reg r = s.reg r) ∧ t.fl = s.fl ∧
    ((∀ ops, i ≠ .ret ops) → t.ra = s.ra) ∧ t.out = s.out ∧ (∀ a, t.mem.read a = s.mem.read a) ∧
    KeepsHostSide s t ∧ KeepsOrFaults s t

/-! ## Whole-machine rules -/

/-- 43_stack.md, the last rule (which the spec derives): a PUSH of a register and a later POP into it, with any state
in between that has the same SP and the same byte at it, restores SP and the register, also for R7 and when SP wraps;
and a PUSH and POP of two registers other than R7 copy the first to the second. -/
def Obligations.PushThenPopRestoresTheRegister : Prop :=
  ∀ (ops ops' : Operands) (s : State) (a b : RegIndex), ops.slotA.toNat = a.val → ops'.slotA.toNat = b.val →
    ∃ t, exec (.push ops) s = .next t ∧
      ∀ m : State, m.reg 7 = t.reg 7 → m.mem.read (m.reg 7).toNat = t.mem.read (t.reg 7).toNat →
        ∃ u, exec (.pop ops') m = .next u ∧
          (a = b → u.reg b = s.reg a ∧ u.reg 7 = s.reg 7) ∧
          (a ≠ 7 → b ≠ 7 → u.reg b = s.reg a ∧ u.reg 7 = s.reg 7)

/-- 44_control_transfer.md, CALL and RET (decision D13, log entry 15): a RET in any later state with the same SP and
the same byte at it returns `pc` to the address right after the CALL's operand bytes and SP to its value before the
CALL. -/
def Obligations.CallThenRetReturnsAfterTheCall : Prop :=
  ∀ (ops ops' : Operands) (s : State) (a : RegIndex), ops.slotA.toNat = a.val → s.pc.toNat + ops.count + 1 ≤ 255 →
    ∃ t, exec (.call ops) s = .next t ∧
      ∀ m : State, m.reg 7 = t.reg 7 → m.mem.read (m.reg 7).toNat = t.mem.read (t.reg 7).toNat →
        ∃ u, exec (.ret ops') m = .next u ∧ u.pc.toNat = s.pc.toNat + ops.count + 1 ∧ u.reg 7 = s.reg 7

/-- R12: only CMP writes `fl`, all of it whatever it was; only JEQ and JNE read it, and only bit 0; no other
instruction, no fault and no stop request changes it. The first clause is about every step of the machine. -/
def Obligations.OnlyCmpWritesTheFlagsAndOnlyBranchesReadThem : Prop :=
  (∀ s t : State, step s = .next t → t.fl ≠ s.fl →
    Executes s ∧ t.status = .running ∧ ∃ ops rest, decode (fetchBytes s) = .instr (.cmp ops) rest) ∧
  (∀ (ops : Operands) (s : State) (fl : Byte), ops.slotA.toNat ≤ 7 → ops.slotB.toNat ≤ 7 →
    exec (.cmp ops) { s with fl := fl } = exec (.cmp ops) s) ∧
  (∀ (i : Instr) (s t : State) (fl : Byte), exec i s = .next t → (∀ ops, i ≠ .cmp ops) →
    ((∃ ops, i = .jeq ops ∨ i = .jne ops) → fl.getLsbD 0 = s.fl.getLsbD 0) →
      exec i { s with fl := fl } = .next { t with fl := fl })

/-- Section 5 of 10_state.md (the latch is the spec's own decision D14, log entry 9): no instruction reads `ra`. Two
states that differ only in it go on to states that differ at most in it, and after RET in nothing. -/
def Obligations.TheReturnLatchIsNeverRead : Prop :=
  ∀ (i : Instr) (s t : State) (ra : Byte), exec i s = .next t →
    ((∀ ops, i ≠ .ret ops) → exec i { s with ra := ra } = .next { t with ra := ra }) ∧
    ((∃ ops, i = .ret ops) → exec i { s with ra := ra } = .next t)

/-- Section 4 of 20_memory.md (which the spec derives): a byte PUSH or CALL has stored is what a later fetch of that
address reads, with nothing in between: self-modified code runs its new bytes. -/
def Obligations.StoredByteIsFetched : Prop :=
  ∀ (ops : Operands) (s : State) (a : RegIndex), ops.slotA.toNat = a.val → s.pc.toNat + ops.count + 1 ≤ 255 →
    ∀ m : State, m.pc.toNat = (s.reg 7 - 1#8).toNat →
      (∃ t, exec (.push ops) s = .next t ∧
        (m.mem = t.mem → (fetchBytes m).head? = some (if a = 7 then s.reg 7 - 1#8 else s.reg a))) ∧
      (∃ t, exec (.call ops) s = .next t ∧
        (m.mem = t.mem → (fetchBytes m).head? = some (BitVec.ofNat 8 (s.pc.toNat + ops.count + 1))))

/-! ## Memory and the host -/

/-- R33: MemRead raises AddressOutOfBounds(addr) above 255 and otherwise goes on with the byte of memory. -/
def Obligations.MemReadIsBoundsChecked : Prop :=
  ∀ (s0 s : State) (addr : Nat) (k : Byte → Result),
    (addr > 255 → memRead s0 s addr k = .next (faultState .addressOutOfBounds addr s0)) ∧
    (addr ≤ 255 → memRead s0 s addr k = k (s.mem.read addr))

/-- R34: MemWrite raises AddressOutOfBounds(addr) above 255; otherwise it goes on in a state in which that cell holds
the value, every other cell what it held, and nothing else has changed. -/
def Obligations.MemWriteIsBoundsChecked : Prop :=
  ∀ (s0 s : State) (addr : Nat) (v : Byte) (k : State → Result),
    (addr > 255 → memWrite s0 s addr v k = .next (faultState .addressOutOfBounds addr s0)) ∧
    (addr ≤ 255 → ∃ t, memWrite s0 s addr v k = k t ∧ t.mem.read addr = v ∧
      (∀ a, a ≠ addr → t.mem.read a = s.mem.read a) ∧ t = { s with mem := t.mem })

/-- Section 1 of 20_memory.md: a memory is its 256 bytes. Two memories in canonical form that read alike at every
address are equal data, so no two states of the model stand for one state of the machine. -/
def Obligations.MemoriesThatReadAlikeAreEqual : Prop :=
  ∀ m m' : Memory, m.wf = true → m'.wf = true → (∀ a, a ≤ 255 → m.read a = m'.read a) → m = m'

/-- Section 1 of 40_execution_cycle.md (the spec's own decisions D8 and D9, log entries 2 and 14): in Ready, an image
of at most 256 bytes becomes memory from address 0 on, with 0x00 past its end, whatever memory held; nothing else
changes. -/
def Obligations.LoadImageReplacesMemory : Prop :=
  ∀ (bytes : List Byte) (s : State), s.status = .ready → bytes.length ≤ 256 →
    (loadImage bytes s).1 = .imageLoaded ∧
    (loadImage bytes s).2 = { s with mem := (loadImage bytes s).2.mem } ∧
    ∀ a, (loadImage bytes s).2.mem.read a = bytes.getD a 0x00#8

/-- Section 1 of 60_exceptions.md and section 7 of 10_state.md (decision D9, log entry 14): an image of more than 256
bytes halts the CORE with MalformedImage and its length, memory as it was; outside Ready an image is refused with no
change. -/
def Obligations.LoadImageRejectsAndRefuses : Prop :=
  ∀ (bytes : List Byte) (s : State),
    (s.status = .ready → 256 < bytes.length →
      loadImage bytes s = (.malformedImage bytes.length, faultState .malformedImage bytes.length s)) ∧
    (s.status ≠ .ready → loadImage bytes s = (.imageRefused, s))

/-- Section 1 of 40_execution_cycle.md and the transaction table in section 7 of 10_state.md (decisions D9 and D22,
log entries 13 and 14): the transaction the host makes at the boundary of a CORE that is not running. In Ready, none
leaves the CORE Ready; `load_image` is answered; `run()` starts the loop and waits. In Halted, every `run()` that
waits returns the recorded outcome, a `load_image` is refused and a `run()` returns the recorded outcome, each at
once. -/
def Obligations.StepServesTheHost : Prop :=
  (∀ s : State, s.status = .ready → hostCall s = none → step s = .next { s with hostCalls := s.hostCalls.tail }) ∧
  (∀ (s : State) (bytes : List Byte), s.status = .ready → hostCall s = some (.loadImage bytes) →
    step s = .next { (loadImage bytes s).2 with
      hostCalls := s.hostCalls.tail, hostReplies := s.hostReplies ++ [(loadImage bytes s).1] }) ∧
  (∀ s : State, s.status = .ready → hostCall s = some .run →
    step s = .next { s with
      status := .running, hostCalls := s.hostCalls.tail, runsWaiting := s.runsWaiting + 1 }) ∧
  (∀ s : State, s.status = .halted →
    step s = .next { s with
      hostCalls := s.hostCalls.tail
      hostReplies := s.hostReplies ++ List.replicate s.runsWaiting (.runReturned s.reason s.fault) ++
        (match hostCall s with
          | none => []
          | some (.loadImage _) => [.imageRefused]
          | some .run => [.runReturned s.reason s.fault])
      runsWaiting := 0 })

/-- The transaction table in section 7 of 10_state.md (decisions D9 and D22, log entries 13 and 14): a transaction
made while Running changes nothing of what the step does. A `load_image` is refused and the host told so in that very
step, whatever the program does, and a `run()` waits: the step ends in the state it would end in with no transaction
there, and beside it one answer more, or one `run()` more that waits. -/
def Obligations.TransactionsWhileRunningDoNotDisturbTheStep : Prop :=
  ∀ (s u : State) (later : List (Option HostCall)), s.status = .running →
    step { s with hostCalls := none :: later } = .next u →
    u.hostReplies = s.hostReplies ∧ u.runsWaiting = s.runsWaiting ∧ u.hostCalls = later ∧
    (∀ bytes : List Byte, step { s with hostCalls := some (.loadImage bytes) :: later } =
      .next { u with hostReplies := s.hostReplies ++ [.imageRefused] }) ∧
    step { s with hostCalls := some .run :: later } = .next { u with runsWaiting := s.runsWaiting + 1 }

/-- Section 1 of 70_reset_and_hazards.md (which the spec derives; how the transactions meet the steps is the model's
choice, log entries 13 and 17): from reset, when the host makes a `load_image` and then a `run()`, two steps reach the
boundary before the image's first instruction: Running, `pc` 0, the image in memory, the load answered, the `run()`
waiting, and all else as after reset. -/
def Obligations.BootLoadsTheImageAndStartsAtZero : Prop :=
  ∀ bytes : List Byte, bytes.length ≤ 256 →
    ∃ t, Sys2Proof.core.run 2 { State.reset with hostCalls := [some (.loadImage bytes), some .run] } = .next t ∧
      t.status = .running ∧ t.pc = 0#9 ∧ (∀ a, t.mem.read a = bytes.getD a 0x00#8) ∧
      t = { State.reset with
        mem := t.mem, status := .running, hostReplies := [.imageLoaded], runsWaiting := 1 }

/-- Section 4 of 60_exceptions.md (decision D25, log entry 20): the host's `read_mem` gives the byte at 0..255 and
returns AddressOutOfBounds with the address above. -/
def Obligations.ReadMemIsBoundsChecked : Prop :=
  ∀ (s : State) (addr : Nat),
    (addr ≤ 255 → readMem s addr = .byte (s.mem.read addr)) ∧
    (addr > 255 → readMem s addr = .raised .addressOutOfBounds addr)

/-- Section 1 of 60_exceptions.md (the spec's own decision D18, log entry 11): the codes of the six causes are 1 to 6,
and 0 is the code of no fault, and of nothing else. -/
def Obligations.FaultCodesAreThoseOfTheTable : Prop :=
  FaultCause.code .addressOutOfBounds = 1 ∧ FaultCause.code .divideByZero = 2 ∧
  FaultCause.code .unsupportedOperation = 3 ∧ FaultCause.code .malformedImage = 4 ∧
  FaultCause.code .illegalOperandCount = 5 ∧ FaultCause.code .registerIndexOutOfRange = 6 ∧
  (∀ f : FaultRecord, faultCode (some f) = f.cause.code) ∧
  ∀ report : Option FaultRecord, faultCode report = 0 ↔ report = none

/-- Section 4 of 70_reset_and_hazards.md, the end of a run (the spec's own decision D22, log entry 13): a safe run
that has halted halted by HLT or by a stop, never with a fault record: from a state of the invariant, if no state of
the run recorded a fatal condition, then at its end no fault record exists, and a trace record exists only after a
stop. -/
def Obligations.SafeRunEndsWithoutAFaultRecord : Prop :=
  ∀ (k : Nat) (s t : State), s.Inv → SafeRun k s → Sys2Proof.core.run k s = .next t →
    t.fault = none ∧ (t.status = .halted → t.reason = .hlt ∨ t.reason = .stopped) ∧ (t.trace ≠ [] → t.reason = .stopped)

/-- 70_reset_and_hazards.md section 1 (which the spec derives): `run()` on a machine whose memory is all 0x00, with no
stop request and `pc` at or below 256, slides through it one byte per step and ends with AddressOutOfBounds(256) at
256, whatever transactions the host makes meanwhile (log entry 13). -/
def Obligations.ZeroedMemorySlidesToAFault : Prop :=
  ∀ (k : Nat) (s : State), s.status = .running → s.stopReq = [] → (∀ a, s.mem.read a = 0x00#8) → s.pc.toNat + k = 256 →
    ∃ t, Sys2Proof.core.run (k + 1) s = .next t ∧
      t = faultState .addressOutOfBounds 256 { s with
        pc := 256#9, hostCalls := s.hostCalls.drop (k + 1), hostReplies := t.hostReplies, runsWaiting := t.runsWaiting }
end

