-- ==== Sys2Proof/Laws/State.lean ====
section
/-! SUPPORT. The small lemmas of the state: one per field for each shared update, so that no proof unfolds a record update. -/

namespace Sys2Proof.Machine

variable (s s0 : State) (r q : RegIndex) (v : Byte) (ops : Operands) (cause : FaultCause) (info : Nat)

@[simp] theorem State.reg_setReg : (s.setReg r v).reg q = if q = r then v else s.reg q := by
  rcases r with ⟨r, hr⟩
  rcases q with ⟨q, hq⟩
  simp [State.reg, State.setReg, Vector.getElem_set, eq_comm]

@[simp] theorem State.setReg_mem : (s.setReg r v).mem = s.mem := rfl
@[simp] theorem State.setReg_fl : (s.setReg r v).fl = s.fl := rfl
@[simp] theorem State.setReg_pc : (s.setReg r v).pc = s.pc := rfl
@[simp] theorem State.setReg_ra : (s.setReg r v).ra = s.ra := rfl
@[simp] theorem State.setReg_status : (s.setReg r v).status = s.status := rfl
@[simp] theorem State.setReg_reason : (s.setReg r v).reason = s.reason := rfl
@[simp] theorem State.setReg_fault : (s.setReg r v).fault = s.fault := rfl
@[simp] theorem State.setReg_out : (s.setReg r v).out = s.out := rfl
@[simp] theorem State.setReg_trace : (s.setReg r v).trace = s.trace := rfl
@[simp] theorem State.setReg_stopReq : (s.setReg r v).stopReq = s.stopReq := rfl
@[simp] theorem State.setReg_hostCalls : (s.setReg r v).hostCalls = s.hostCalls := rfl
@[simp] theorem State.setReg_hostReplies : (s.setReg r v).hostReplies = s.hostReplies := rfl
@[simp] theorem State.setReg_runsWaiting : (s.setReg r v).runsWaiting = s.runsWaiting := rfl

@[simp] theorem advance_mem : (advance ops s0 s).mem = s.mem := rfl
@[simp] theorem advance_regs : (advance ops s0 s).regs = s.regs := rfl
@[simp] theorem advance_reg : (advance ops s0 s).reg r = s.reg r := rfl
@[simp] theorem advance_fl : (advance ops s0 s).fl = s.fl := rfl
@[simp] theorem advance_pc : (advance ops s0 s).pc = BitVec.ofNat 9 (nextAddress ops s0) := rfl
@[simp] theorem advance_ra : (advance ops s0 s).ra = s.ra := rfl
@[simp] theorem advance_status : (advance ops s0 s).status = s.status := rfl
@[simp] theorem advance_reason : (advance ops s0 s).reason = s.reason := rfl
@[simp] theorem advance_fault : (advance ops s0 s).fault = s.fault := rfl
@[simp] theorem advance_out : (advance ops s0 s).out = s.out := rfl
@[simp] theorem advance_trace : (advance ops s0 s).trace = s.trace := rfl
@[simp] theorem advance_stopReq : (advance ops s0 s).stopReq = s.stopReq := rfl
@[simp] theorem advance_hostCalls : (advance ops s0 s).hostCalls = s.hostCalls := rfl
@[simp] theorem advance_hostReplies : (advance ops s0 s).hostReplies = s.hostReplies := rfl
@[simp] theorem advance_runsWaiting : (advance ops s0 s).runsWaiting = s.runsWaiting := rfl

@[simp] theorem jumpTo_mem : (jumpTo v s).mem = s.mem := rfl
@[simp] theorem jumpTo_regs : (jumpTo v s).regs = s.regs := rfl
@[simp] theorem jumpTo_reg : (jumpTo v s).reg r = s.reg r := rfl
@[simp] theorem jumpTo_fl : (jumpTo v s).fl = s.fl := rfl
@[simp] theorem jumpTo_pc : (jumpTo v s).pc = v.setWidth 9 := rfl
@[simp] theorem jumpTo_ra : (jumpTo v s).ra = s.ra := rfl
@[simp] theorem jumpTo_status : (jumpTo v s).status = s.status := rfl
@[simp] theorem jumpTo_reason : (jumpTo v s).reason = s.reason := rfl
@[simp] theorem jumpTo_fault : (jumpTo v s).fault = s.fault := rfl
@[simp] theorem jumpTo_out : (jumpTo v s).out = s.out := rfl
@[simp] theorem jumpTo_trace : (jumpTo v s).trace = s.trace := rfl
@[simp] theorem jumpTo_stopReq : (jumpTo v s).stopReq = s.stopReq := rfl
@[simp] theorem jumpTo_hostCalls : (jumpTo v s).hostCalls = s.hostCalls := rfl
@[simp] theorem jumpTo_hostReplies : (jumpTo v s).hostReplies = s.hostReplies := rfl
@[simp] theorem jumpTo_runsWaiting : (jumpTo v s).runsWaiting = s.runsWaiting := rfl

@[simp] theorem enterFault_mem : (enterFault cause info s).mem = s.mem := rfl
@[simp] theorem enterFault_regs : (enterFault cause info s).regs = s.regs := rfl
@[simp] theorem enterFault_reg : (enterFault cause info s).reg r = s.reg r := rfl
@[simp] theorem enterFault_fl : (enterFault cause info s).fl = s.fl := rfl
@[simp] theorem enterFault_pc : (enterFault cause info s).pc = s.pc := rfl
@[simp] theorem enterFault_ra : (enterFault cause info s).ra = s.ra := rfl
@[simp] theorem enterFault_status : (enterFault cause info s).status = .halted := rfl
@[simp] theorem enterFault_reason : (enterFault cause info s).reason = .fault := rfl
@[simp] theorem enterFault_fault :
    (enterFault cause info s).fault = some { cause := cause, pc := s.pc, info := info } := rfl
@[simp] theorem enterFault_out : (enterFault cause info s).out = s.out := rfl
@[simp] theorem enterFault_trace : (enterFault cause info s).trace = s.trace := rfl
@[simp] theorem enterFault_stopReq : (enterFault cause info s).stopReq = s.stopReq := rfl
@[simp] theorem enterFault_hostCalls : (enterFault cause info s).hostCalls = s.hostCalls := rfl
@[simp] theorem enterFault_hostReplies : (enterFault cause info s).hostReplies = s.hostReplies := rfl
@[simp] theorem enterFault_runsWaiting : (enterFault cause info s).runsWaiting = s.runsWaiting := rfl

/-- R14: a jump target is at most 255. -/
theorem jumpTo_pc_toNat : (jumpTo v s).pc.toNat = v.toNat := by
  have := v.isLt
  simp only [jumpTo_pc, BitVec.toNat_setWidth]
  omega

/-- R69: the advance does not wrap when the instruction ends inside memory. -/
theorem advance_pc_toNat (h : s0.pc.toNat + ops.count ≤ 255) :
    (advance ops s0 s).pc.toNat = s0.pc.toNat + ops.count + 1 := by
  simp only [advance_pc, nextAddress, BitVec.toNat_ofNat]
  omega

theorem Operands.count_le : ops.count ≤ 2 := by
  cases ops <;> simp [Operands.count]

end Sys2Proof.Machine
end

