-- ==== Sys2Proof/Laws/Ops.lean ====
section
/-! SUPPORT. One lemma per shared operation: everything it can do. -/

namespace Sys2Proof.Machine

/-- CheckReg continues with the register the byte names. -/
theorem checkReg_of_le {s0 : State} {r : Byte} {k : RegIndex → Result} (i : RegIndex) (h : r.toNat = i.val) :
    checkReg s0 r k = k i := by
  have hlt : r.toNat < 8 := by omega
  have hi : (⟨r.toNat, hlt⟩ : RegIndex) = i := Fin.ext h
  simp [checkReg, hlt, hi]

/-- CheckReg raises for a byte above 7. -/
theorem checkReg_of_gt {s0 : State} {r : Byte} {k : RegIndex → Result} (h : 7 < r.toNat) :
    checkReg s0 r k = .next (enterFault .registerIndexOutOfRange r.toNat s0) := by
  have : ¬ r.toNat < 8 := by omega
  simp [checkReg, this, raiseFault]

/-- The two things CheckReg can do. -/
theorem checkReg_cases (s0 : State) (r : Byte) (k : RegIndex → Result) :
    (∃ i : RegIndex, r.toNat = i.val ∧ checkReg s0 r k = k i) ∨
      (7 < r.toNat ∧ checkReg s0 r k = .next (enterFault .registerIndexOutOfRange r.toNat s0)) := by
  by_cases h : r.toNat < 8
  · exact .inl ⟨⟨r.toNat, h⟩, rfl, checkReg_of_le ⟨r.toNat, h⟩ rfl⟩
  · exact .inr ⟨by omega, checkReg_of_gt (by omega)⟩

/-- The three things the check of two register operands can do, in their order. -/
theorem checkTwoRegs_cases (s0 : State) (ops : Operands) (k : RegIndex → RegIndex → Result) :
    (∃ a b : RegIndex, ops.slotA.toNat = a.val ∧ ops.slotB.toNat = b.val ∧ checkTwoRegs s0 ops k = k a b) ∨
      (7 < ops.slotA.toNat ∧
        checkTwoRegs s0 ops k = .next (enterFault .registerIndexOutOfRange ops.slotA.toNat s0)) ∨
      (ops.slotA.toNat ≤ 7 ∧ 7 < ops.slotB.toNat ∧
        checkTwoRegs s0 ops k = .next (enterFault .registerIndexOutOfRange ops.slotB.toNat s0)) := by
  unfold checkTwoRegs
  obtain ⟨a, ha, h⟩ | ⟨ha, h⟩ := checkReg_cases s0 ops.slotA fun a => checkReg s0 ops.slotB fun b => k a b
  · obtain ⟨b, hb, h'⟩ | ⟨hb, h'⟩ := checkReg_cases s0 ops.slotB fun b => k a b
    · exact .inl ⟨a, b, ha, hb, h.trans h'⟩
    · exact .inr (.inr ⟨by omega, hb, h.trans h'⟩)
  · exact .inr (.inl ⟨ha, h⟩)

/-- The check of two register operands that both name registers. -/
theorem checkTwoRegs_of_le {s0 : State} {ops : Operands} {k : RegIndex → RegIndex → Result} (a b : RegIndex)
    (ha : ops.slotA.toNat = a.val) (hb : ops.slotB.toNat = b.val) : checkTwoRegs s0 ops k = k a b := by
  rw [checkTwoRegs, checkReg_of_le a ha, checkReg_of_le b hb]

/-- R41: MemRead at a byte address never raises. -/
@[simp] theorem memRead_byte (s0 s : State) (a : Byte) (k : Byte → Result) :
    memRead s0 s a.toNat k = k (s.mem.read a.toNat) := by
  have := a.isLt
  simp only [memRead]
  rw [if_neg (by omega)]

/-- R41: MemWrite at a byte address never raises. -/
@[simp] theorem memWrite_byte (s0 s : State) (a v : Byte) (k : State → Result) :
    memWrite s0 s a.toNat v k = k { s with mem := s.mem.write a.toNat v } := by
  have := a.isLt
  simp only [memWrite]
  rw [if_neg (by omega)]

/-- The stack pointer after a write of it. -/
@[simp] theorem State.sp_setSp (s : State) (v : Byte) : (s.setSp v).sp = v := by
  simp [State.setSp, State.sp]

/-- R41, R85: a push never raises: the state after it, whole. -/
theorem pushByte_next (s0 : State) (value : State → Byte) (k : State → Result) :
    pushByte s0 value k =
      k { s0.setSp (s0.sp - 1#8) with
          mem := s0.mem.write (s0.sp - 1#8).toNat (value (s0.setSp (s0.sp - 1#8))) } := by
  simp only [pushByte, memWrite_byte, State.sp_setSp]
  rfl

end Sys2Proof.Machine
end

