-- ==== Sys2Proof/Laws/Exec.lean ====
section
/-! SUPPORT. One inversion lemma per meaning: every way it can end, with its whole next state. Proofs about the
instructions cite these and unfold no meaning. -/

namespace Sys2Proof.Machine

variable (ops : Operands) (s : State)

/-- What an ALU instruction can do: continue with two registers, or fault on operand a, or on operand b. -/
theorem aluResult_cases (k : RegIndex → RegIndex → Result) :
    (∃ a b : RegIndex, ops.slotA.toNat = a.val ∧ ops.slotB.toNat = b.val ∧ checkTwoRegs s ops k = k a b) ∨
      ∃ n, (n = ops.slotA.toNat ∨ n = ops.slotB.toNat) ∧ 8 ≤ n ∧ n ≤ 255 ∧
        checkTwoRegs s ops k = .next (enterFault .registerIndexOutOfRange n s) := by
  have hA := ops.slotA.isLt
  have hB := ops.slotB.isLt
  obtain h | ⟨h, h'⟩ | ⟨_, h, h'⟩ := checkTwoRegs_cases s ops k
  · exact .inl h
  · exact .inr ⟨_, .inl rfl, by omega, by omega, h'⟩
  · exact .inr ⟨_, .inr rfl, by omega, by omega, h'⟩

/-- What an instruction with one register operand can do: continue with it, or fault. -/
theorem oneReg_cases (k : RegIndex → Result) :
    (∃ a : RegIndex, ops.slotA.toNat = a.val ∧ checkReg s ops.slotA k = k a) ∨
      (8 ≤ ops.slotA.toNat ∧ ops.slotA.toNat ≤ 255 ∧
        checkReg s ops.slotA k = .next (enterFault .registerIndexOutOfRange ops.slotA.toNat s)) := by
  have hA := ops.slotA.isLt
  obtain h | ⟨h, h'⟩ := checkReg_cases s ops.slotA k
  · exact .inl h
  · exact .inr ⟨by omega, by omega, h'⟩

theorem execPush_of_reg (a : RegIndex) (h : ops.slotA.toNat = a.val) :
    execPush ops s = .next (advance ops s { s.setSp (s.sp - 1#8) with
      mem := s.mem.write (s.sp - 1#8).toNat ((s.setSp (s.sp - 1#8)).reg a) }) := by
  rw [execPush, checkReg_of_le a h, pushByte_next]

theorem execPop_of_reg (a : RegIndex) (h : ops.slotA.toNat = a.val) :
    execPop ops s = .next (advance ops s ((s.setReg a (s.mem.read s.sp.toNat)).setSp
      ((s.setReg a (s.mem.read s.sp.toNat)).sp + 1#8))) := by
  rw [execPop, checkReg_of_le a h, memRead_byte]

theorem execCall_of_reg (a : RegIndex) (h : ops.slotA.toNat = a.val) (hret : nextAddress ops s ≤ 255) :
    execCall ops s = .next (jumpTo ((s.setSp (s.sp - 1#8)).reg a) { s.setSp (s.sp - 1#8) with
      mem := s.mem.write (s.sp - 1#8).toNat (BitVec.ofNat 8 (nextAddress ops s)) }) := by
  rw [execCall, checkReg_of_le a h, if_neg (by omega), pushByte_next]
  rfl

theorem execCall_of_full (a : RegIndex) (h : ops.slotA.toNat = a.val) (hret : 255 < nextAddress ops s) :
    execCall ops s = .next (enterFault .addressOutOfBounds (nextAddress ops s) s) := by
  rw [execCall, checkReg_of_le a h, if_pos (by omega), raiseFault]

theorem execRet_next :
    execRet ops s = .next (jumpTo (s.mem.read s.sp.toNat) ({ s with ra := s.mem.read s.sp.toNat }.setSp (s.sp + 1#8))) := by
  rw [execRet, memRead_byte]
  rfl

/-- CALL: the three ways it can end. -/
theorem execCall_cases :
    (∃ a : RegIndex, ops.slotA.toNat = a.val ∧ nextAddress ops s ≤ 255 ∧
      execCall ops s = .next (jumpTo ((s.setSp (s.sp - 1#8)).reg a) { s.setSp (s.sp - 1#8) with
        mem := s.mem.write (s.sp - 1#8).toNat (BitVec.ofNat 8 (nextAddress ops s)) })) ∨
      (255 < nextAddress ops s ∧ execCall ops s = .next (enterFault .addressOutOfBounds (nextAddress ops s) s)) ∨
      (8 ≤ ops.slotA.toNat ∧ ops.slotA.toNat ≤ 255 ∧
        execCall ops s = .next (enterFault .registerIndexOutOfRange ops.slotA.toNat s)) := by
  have hA := ops.slotA.isLt
  by_cases h : ops.slotA.toNat < 8
  · by_cases hret : nextAddress ops s ≤ 255
    · exact .inl ⟨⟨_, h⟩, rfl, hret, execCall_of_reg ops s ⟨_, h⟩ rfl hret⟩
    · exact .inr (.inl ⟨by omega, execCall_of_full ops s ⟨_, h⟩ rfl (by omega)⟩)
  · refine .inr (.inr ⟨by omega, by omega, ?_⟩)
    rw [execCall, checkReg_of_gt (by omega)]

/-- DIV: the three ways it can end. -/
theorem execDiv_cases :
    (∃ a b : RegIndex, ops.slotA.toNat = a.val ∧ ops.slotB.toNat = b.val ∧ (s.reg b).toNat ≠ 0 ∧
      execDiv ops s = writeAluResult s ops a ((s.reg a).toNat / (s.reg b).toNat)) ∨
      (∃ b : RegIndex, ops.slotB.toNat = b.val ∧ (s.reg b).toNat = 0 ∧
        execDiv ops s = .next (enterFault .divideByZero b.val s)) ∨
      ∃ n, (n = ops.slotA.toNat ∨ n = ops.slotB.toNat) ∧ 8 ≤ n ∧ n ≤ 255 ∧
        execDiv ops s = .next (enterFault .registerIndexOutOfRange n s) := by
  unfold execDiv
  obtain ⟨a, b, ha, hb, h⟩ | ⟨n, hn⟩ := aluResult_cases ops s fun a b =>
    if (s.reg b).toNat = 0 then raiseFault .divideByZero b.val s
    else writeAluResult s ops a ((s.reg a).toNat / (s.reg b).toNat)
  · by_cases hz : (s.reg b).toNat = 0
    · exact .inr (.inl ⟨b, hb, hz, by rw [h, if_pos hz, raiseFault]⟩)
    · exact .inl ⟨a, b, ha, hb, hz, by rw [h, if_neg hz]⟩
  · exact .inr (.inr ⟨n, hn⟩)

/-- Every meaning, whatever the state, answers a next state: the whole next state where it runs, or fault entry. -/
theorem exec_fault_or_run (i : Instr) (s : State) :
    (∃ cause info, exec i s = .next (enterFault cause info s)) ∨
      ∃ t, exec i s = .next t ∧ t.fault = s.fault ∧ t.trace = s.trace ∧ t.stopReq = s.stopReq ∧
        t.hostCalls = s.hostCalls ∧ t.hostReplies = s.hostReplies ∧ t.runsWaiting = s.runsWaiting ∧
        (t.status = s.status ∧ t.reason = s.reason ∨ t.status = .halted ∧ t.reason = .hlt ∧ ∃ ops, i = .hlt ops) := by
  cases i with
  | ldi ops =>
    obtain ⟨a, _, h⟩ | ⟨_, _, h⟩ := oneReg_cases ops s fun a => .next (advance ops s (s.setReg a ops.slotB))
    · exact .inr ⟨_, h, rfl, rfl, rfl, rfl, rfl, rfl, .inl ⟨rfl, rfl⟩⟩
    · exact .inl ⟨_, _, h⟩
  | prn ops =>
    obtain ⟨a, _, h⟩ | ⟨_, _, h⟩ := oneReg_cases ops s fun a => .next (advance ops s (emitOut (s.reg a) s))
    · exact .inr ⟨_, h, rfl, rfl, rfl, rfl, rfl, rfl, .inl ⟨rfl, rfl⟩⟩
    · exact .inl ⟨_, _, h⟩
  | hlt ops => exact .inr ⟨_, rfl, rfl, rfl, rfl, rfl, rfl, rfl, .inr ⟨rfl, rfl, ops, rfl⟩⟩
  | push ops =>
    by_cases h : ops.slotA.toNat < 8
    · exact .inr ⟨_, execPush_of_reg ops s ⟨_, h⟩ rfl, rfl, rfl, rfl, rfl, rfl, rfl, .inl ⟨rfl, rfl⟩⟩
    · refine .inl ⟨.registerIndexOutOfRange, ops.slotA.toNat, ?_⟩
      rw [exec, execPush, checkReg_of_gt (by omega)]
  | pop ops =>
    by_cases h : ops.slotA.toNat < 8
    · exact .inr ⟨_, execPop_of_reg ops s ⟨_, h⟩ rfl, rfl, rfl, rfl, rfl, rfl, rfl, .inl ⟨rfl, rfl⟩⟩
    · refine .inl ⟨.registerIndexOutOfRange, ops.slotA.toNat, ?_⟩
      rw [exec, execPop, checkReg_of_gt (by omega)]
  | call ops =>
    obtain ⟨a, _, _, h⟩ | ⟨_, h⟩ | ⟨_, _, h⟩ := execCall_cases ops s
    · exact .inr ⟨_, h, rfl, rfl, rfl, rfl, rfl, rfl, .inl ⟨rfl, rfl⟩⟩
    · exact .inl ⟨_, _, h⟩
    · exact .inl ⟨_, _, h⟩
  | ret ops => exact .inr ⟨_, execRet_next ops s, rfl, rfl, rfl, rfl, rfl, rfl, .inl ⟨rfl, rfl⟩⟩
  | jmp ops =>
    obtain ⟨a, _, h⟩ | ⟨_, _, h⟩ := oneReg_cases ops s fun a => .next (jumpTo (s.reg a) s)
    · exact .inr ⟨_, h, rfl, rfl, rfl, rfl, rfl, rfl, .inl ⟨rfl, rfl⟩⟩
    · exact .inl ⟨_, _, h⟩
  | jeq ops =>
    obtain ⟨a, _, h⟩ | ⟨_, _, h⟩ := oneReg_cases ops s fun a =>
      if equalFlag s.fl then .next (jumpTo (s.reg a) s) else .next (advance ops s s)
    · refine .inr ?_
      by_cases he : equalFlag s.fl
      · exact ⟨_, h.trans (if_pos he), rfl, rfl, rfl, rfl, rfl, rfl, .inl ⟨rfl, rfl⟩⟩
      · exact ⟨_, h.trans (if_neg he), rfl, rfl, rfl, rfl, rfl, rfl, .inl ⟨rfl, rfl⟩⟩
    · exact .inl ⟨_, _, h⟩
  | jne ops =>
    obtain ⟨a, _, h⟩ | ⟨_, _, h⟩ := oneReg_cases ops s fun a =>
      if equalFlag s.fl then .next (advance ops s s) else .next (jumpTo (s.reg a) s)
    · refine .inr ?_
      by_cases he : equalFlag s.fl
      · exact ⟨_, h.trans (if_pos he), rfl, rfl, rfl, rfl, rfl, rfl, .inl ⟨rfl, rfl⟩⟩
      · exact ⟨_, h.trans (if_neg he), rfl, rfl, rfl, rfl, rfl, rfl, .inl ⟨rfl, rfl⟩⟩
    · exact .inl ⟨_, _, h⟩
  | add ops =>
    obtain ⟨a, b, _, _, h⟩ | ⟨_, _, _, _, h⟩ := aluResult_cases ops s fun a b =>
      writeAluResult s ops a ((s.reg a).toNat + (s.reg b).toNat)
    · exact .inr ⟨_, h, rfl, rfl, rfl, rfl, rfl, rfl, .inl ⟨rfl, rfl⟩⟩
    · exact .inl ⟨_, _, h⟩
  | sub ops =>
    obtain ⟨a, b, _, _, h⟩ | ⟨_, _, _, _, h⟩ := aluResult_cases ops s fun a b =>
      writeAluResult s ops a ((s.reg a).toNat + 256 - (s.reg b).toNat)
    · exact .inr ⟨_, h, rfl, rfl, rfl, rfl, rfl, rfl, .inl ⟨rfl, rfl⟩⟩
    · exact .inl ⟨_, _, h⟩
  | mul ops =>
    obtain ⟨a, b, _, _, h⟩ | ⟨_, _, _, _, h⟩ := aluResult_cases ops s fun a b =>
      writeAluResult s ops a ((s.reg a).toNat * (s.reg b).toNat)
    · exact .inr ⟨_, h, rfl, rfl, rfl, rfl, rfl, rfl, .inl ⟨rfl, rfl⟩⟩
    · exact .inl ⟨_, _, h⟩
  | div ops =>
    obtain ⟨a, b, _, _, _, h⟩ | ⟨_, _, _, h⟩ | ⟨_, _, _, _, h⟩ := execDiv_cases ops s
    · exact .inr ⟨_, h, rfl, rfl, rfl, rfl, rfl, rfl, .inl ⟨rfl, rfl⟩⟩
    · exact .inl ⟨_, _, h⟩
    · exact .inl ⟨_, _, h⟩
  | cmp ops =>
    obtain ⟨a, b, _, _, h⟩ | ⟨_, _, _, _, h⟩ := aluResult_cases ops s fun a b =>
      .next (advance ops s { s with fl := compareFlags (s.reg a) (s.reg b) })
    · exact .inr ⟨_, h, rfl, rfl, rfl, rfl, rfl, rfl, .inl ⟨rfl, rfl⟩⟩
    · exact .inl ⟨_, _, h⟩

end Sys2Proof.Machine
end

