-- ==== Sys2Proof/Laws/Memory.lean ====
section
/-! SUPPORT. The laws of the memory as a list of cells: what the parts of a write do, and that they keep the canonical form. -/

namespace Sys2Proof.Machine

theorem Memory.read_insert (m : Memory) (addr : Nat) (v : Byte) (h : ∀ c ∈ m, c.1 ≠ addr) (a : Nat) :
    (Memory.insert m addr v).read a = if a = addr then v else m.read a := by
  induction m with
  | nil => simp [Memory.insert, Memory.read]
  | cons c rest ih =>
    obtain ⟨b, w⟩ := c
    have hb : b ≠ addr := h (b, w) (by simp)
    have ih' := ih fun c hc => h c (by simp [hc])
    simp only [Memory.insert]
    split
    · simp [Memory.read]
    · simp only [Memory.read, ih']
      split
      · next hba => rw [if_neg (by omega)]
      · rfl

theorem Memory.read_erase_same (m : Memory) (addr : Nat) :
    Memory.read (m.filter fun c => c.1 ≠ addr) addr = Config.unlistedByte := by
  induction m with
  | nil => rfl
  | cons c rest ih =>
    simp only [List.filter_cons]
    split
    · next h =>
      have hne : c.1 ≠ addr := by simpa using h
      simp only [Memory.read]
      rw [if_neg (Ne.symm hne)]
      exact ih
    · exact ih

theorem Memory.read_erase_other (m : Memory) (addr a : Nat) (h : a ≠ addr) :
    Memory.read (m.filter fun c => c.1 ≠ addr) a = m.read a := by
  induction m with
  | nil => rfl
  | cons c rest ih =>
    obtain ⟨b, w⟩ := c
    simp only [List.filter_cons]
    split
    · simp only [Memory.read, ih]
    · next hb =>
      have hba : b = addr := by simpa using hb
      rw [ih]
      simp only [Memory.read]
      rw [if_neg (by omega)]

theorem Memory.erase_none (m : Memory) (addr : Nat) : ∀ c ∈ m.filter (fun c => c.1 ≠ addr), c.1 ≠ addr := by
  intro c hc
  have := (List.mem_filter.mp hc).2
  simpa using this

theorem Memory.wfFrom_mono {m : Memory} {low low' : Nat} (h : low' ≤ low) (hw : Memory.wfFrom low m = true) :
    Memory.wfFrom low' m = true := by
  cases m with
  | nil => rfl
  | cons c rest =>
    simp only [Memory.wfFrom, Bool.and_eq_true, decide_eq_true_eq] at hw ⊢
    exact ⟨⟨⟨by omega, hw.1.1.2⟩, hw.1.2⟩, hw.2⟩

theorem Memory.wfFrom_erase {m : Memory} {low : Nat} (addr : Nat) (hw : Memory.wfFrom low m = true) :
    Memory.wfFrom low (m.filter fun c => c.1 ≠ addr) = true := by
  induction m generalizing low with
  | nil => rfl
  | cons c rest ih =>
    simp only [Memory.wfFrom, Bool.and_eq_true, decide_eq_true_eq] at hw
    simp only [List.filter_cons]
    split
    · simp only [Memory.wfFrom, Bool.and_eq_true, decide_eq_true_eq]
      exact ⟨hw.1, ih hw.2⟩
    · exact ih (Memory.wfFrom_mono (by omega) hw.2)

theorem Memory.wfFrom_insert {m : Memory} {low addr : Nat} {v : Byte} (hw : Memory.wfFrom low m = true)
    (hlow : low ≤ addr) (haddr : addr < Config.memorySize) (hv : v ≠ Config.unlistedByte)
    (hnone : ∀ c ∈ m, c.1 ≠ addr) : Memory.wfFrom low (Memory.insert m addr v) = true := by
  induction m generalizing low with
  | nil => simp [Memory.insert, Memory.wfFrom, hlow, haddr, hv]
  | cons c rest ih =>
    obtain ⟨b, w⟩ := c
    have hb : b ≠ addr := hnone (b, w) (by simp)
    simp only [Memory.wfFrom, Bool.and_eq_true, decide_eq_true_eq] at hw
    simp only [Memory.insert]
    split
    · simp only [Memory.wfFrom, Bool.and_eq_true, decide_eq_true_eq]
      exact ⟨⟨⟨hlow, haddr⟩, hv⟩, ⟨⟨by omega, hw.1.1.2⟩, hw.1.2⟩, hw.2⟩
    · simp only [Memory.wfFrom, Bool.and_eq_true, decide_eq_true_eq]
      exact ⟨hw.1, ih hw.2 (by omega) fun c hc => hnone c (by simp [hc])⟩

/-- A memory that holds an image from `low` on is canonical when the image ends inside memory. -/
theorem Memory.wfFrom_ofBytes (bytes : List Byte) (low : Nat) (h : low + bytes.length ≤ Config.memorySize) :
    Memory.wfFrom low (Memory.ofBytes low bytes) = true := by
  induction bytes generalizing low with
  | nil => rfl
  | cons b rest ih =>
    simp only [List.length_cons] at h
    have ih' := ih (low + 1) (by omega)
    simp only [Memory.ofBytes]
    split
    · exact Memory.wfFrom_mono (by omega) ih'
    · next hb =>
      simp only [Memory.wfFrom, Bool.and_eq_true, decide_eq_true_eq]
      exact ⟨⟨⟨Nat.le_refl _, by omega⟩, hb⟩, ih'⟩

/-- Reading below an image finds nothing of it. -/
theorem Memory.read_ofBytes_below (bytes : List Byte) (low a : Nat) (h : a < low) :
    (Memory.ofBytes low bytes).read a = Config.unlistedByte := by
  induction bytes generalizing low with
  | nil => rfl
  | cons b rest ih =>
    simp only [Memory.ofBytes]
    split
    · exact ih (low + 1) (by omega)
    · simp only [Memory.read]
      rw [if_neg (by omega)]
      exact ih (low + 1) (by omega)

/-- A read after a write to the same cell gives the value written, and a write leaves every other cell alone. -/
theorem Memory.read_write (m : Memory) (addr : Nat) (v : Byte) (a : Nat) :
    (m.write addr v).read a = if a = addr then v else m.read a := by
  have hinsert := Memory.read_insert _ addr v (Memory.erase_none m addr) a
  simp only [Memory.write]
  by_cases ha : a = addr
  · subst ha
    rw [if_pos rfl] at hinsert ⊢
    split
    · next hv => rw [Memory.read_erase_same, hv]
    · exact hinsert
  · rw [if_neg ha, Memory.read_erase_other _ _ _ ha] at hinsert
    rw [if_neg ha]
    split
    · exact Memory.read_erase_other _ _ _ ha
    · exact hinsert

/-- A write inside memory keeps the canonical form. -/
theorem Memory.wf_write {m : Memory} {addr : Nat} {v : Byte} (hm : m.wf = true) (ha : addr < Config.memorySize) :
    (m.write addr v).wf = true := by
  unfold Memory.write Memory.wf
  dsimp only
  split
  · exact Memory.wfFrom_erase _ hm
  · next hv => exact Memory.wfFrom_insert (Memory.wfFrom_erase _ hm) (Nat.zero_le _) ha hv (Memory.erase_none _ _)

/-- So does storing bytes one after the other. -/
theorem Memory.wf_writeBytes (bytes : List Byte) {m : Memory} {addr : Nat} (hm : m.wf = true)
    (ha : addr + bytes.length ≤ Config.memorySize) : (m.writeBytes addr bytes).wf = true := by
  induction bytes generalizing m addr with
  | nil => exact hm
  | cons b rest ih =>
    simp only [List.length_cons] at ha
    exact ih (Memory.wf_write hm (by omega)) (by omega)

/-- An image that fits is a canonical memory. -/
theorem Memory.wf_ofBytes {bytes : List Byte} (h : bytes.length ≤ Config.memorySize) : (Memory.ofBytes 0 bytes).wf = true :=
  Memory.wfFrom_ofBytes bytes 0 (by omega)

/-- The memory after reset is canonical. -/
theorem State.reset_mem_wf : State.reset.mem.wf = true := rfl

end Sys2Proof.Machine
end

