-- ==== Sys2Proof/Laws/PerInstr.lean ====
section
/-! SUPPORT. The statement made per instruction: the length of its encoding (R6, R49). -/

namespace Sys2Proof.Laws

/-- R6, R49: an instruction is its word and N operand bytes, 1, 2 or 3 bytes in all. -/
def EncodedLength.Statement (i : Instr) : Prop :=
  (encode i).length = 1 + i.operands.count ∧ (encode i).length ≤ 3

theorem EncodedLength.of_operands (i : Instr) : EncodedLength.Statement i := by
  simp only [EncodedLength.Statement, encode, List.length_cons]
  cases i.operands <;> simp [Operands.bytes, Operands.count]

theorem EncodedLength.ldi (ops : Operands) : EncodedLength.Statement (.ldi ops) := EncodedLength.of_operands _
theorem EncodedLength.prn (ops : Operands) : EncodedLength.Statement (.prn ops) := EncodedLength.of_operands _
theorem EncodedLength.hlt (ops : Operands) : EncodedLength.Statement (.hlt ops) := EncodedLength.of_operands _
theorem EncodedLength.push (ops : Operands) : EncodedLength.Statement (.push ops) := EncodedLength.of_operands _
theorem EncodedLength.pop (ops : Operands) : EncodedLength.Statement (.pop ops) := EncodedLength.of_operands _
theorem EncodedLength.call (ops : Operands) : EncodedLength.Statement (.call ops) := EncodedLength.of_operands _
theorem EncodedLength.ret (ops : Operands) : EncodedLength.Statement (.ret ops) := EncodedLength.of_operands _
theorem EncodedLength.jmp (ops : Operands) : EncodedLength.Statement (.jmp ops) := EncodedLength.of_operands _
theorem EncodedLength.jeq (ops : Operands) : EncodedLength.Statement (.jeq ops) := EncodedLength.of_operands _
theorem EncodedLength.jne (ops : Operands) : EncodedLength.Statement (.jne ops) := EncodedLength.of_operands _
theorem EncodedLength.add (ops : Operands) : EncodedLength.Statement (.add ops) := EncodedLength.of_operands _
theorem EncodedLength.sub (ops : Operands) : EncodedLength.Statement (.sub ops) := EncodedLength.of_operands _
theorem EncodedLength.mul (ops : Operands) : EncodedLength.Statement (.mul ops) := EncodedLength.of_operands _
theorem EncodedLength.div (ops : Operands) : EncodedLength.Statement (.div ops) := EncodedLength.of_operands _
theorem EncodedLength.cmp (ops : Operands) : EncodedLength.Statement (.cmp ops) := EncodedLength.of_operands _

end Sys2Proof.Laws
end

