-- ==== Sys2Proof/Laws/Step.lean ====
section
/-! SUPPORT. What the step is in each status, what the fetch finds, and a run of one step more. -/

namespace Sys2Proof.Machine

variable (s : State)

@[simp] theorem boundary_mem : (boundary s).mem = s.mem := rfl
@[simp] theorem boundary_regs : (boundary s).regs = s.regs := rfl
@[simp] theorem boundary_reg (r : RegIndex) : (boundary s).reg r = s.reg r := rfl
@[simp] theorem boundary_fl : (boundary s).fl = s.fl := rfl
@[simp] theorem boundary_pc : (boundary s).pc = s.pc := rfl
@[simp] theorem boundary_ra : (boundary s).ra = s.ra := rfl
@[simp] theorem boundary_status : (boundary s).status = s.status := rfl
@[simp] theorem boundary_reason : (boundary s).reason = s.reason := rfl
@[simp] theorem boundary_fault : (boundary s).fault = s.fault := rfl
@[simp] theorem boundary_out : (boundary s).out = s.out := rfl
@[simp] theorem boundary_trace : (boundary s).trace = s.trace := rfl
@[simp] theorem boundary_stopReq : (boundary s).stopReq = s.stopReq.tail := rfl
@[simp] theorem boundary_hostCalls : (boundary s).hostCalls = s.hostCalls.tail := rfl
@[simp] theorem boundary_hostReplies : (boundary s).hostReplies = s.hostReplies ++ repliesWhileRunning s := rfl
@[simp] theorem boundary_runsWaiting : (boundary s).runsWaiting = s.runsWaiting + runsMadeWhileRunning s := rfl

variable {s}

/-- R23: outside Ready `load_image` is refused, with no change. -/
theorem loadImage_of_not_ready (bytes : List Byte) (hs : s.status ≠ .ready) : loadImage bytes s = (.imageRefused, s) := by
  cases h : s.status with
  | ready => exact absurd h hs
  | running => simp only [loadImage, h]
  | halted => simp only [loadImage, h]

/-- R61: in Ready an image that fits becomes memory. -/
theorem loadImage_of_fits {bytes : List Byte} (hs : s.status = .ready) (hb : bytes.length ≤ 256) :
    loadImage bytes s = (.imageLoaded, { s with mem := Memory.ofBytes 0 bytes }) := by
  simp only [loadImage, hs]
  rw [if_neg (by omega)]

/-- R98: in Ready a longer image raises MalformedImage. -/
theorem loadImage_of_too_long {bytes : List Byte} (hs : s.status = .ready) (hb : 256 < bytes.length) :
    loadImage bytes s = (.malformedImage bytes.length, enterFault .malformedImage bytes.length s) := by
  simp only [loadImage, hs]
  rw [if_pos hb]

/-- A Running machine with no stop request runs what its bytes decode to. -/
theorem step_of_running (hs : s.status = .running) (hstop : stopAsserted s = false) :
    step s = runDecoded (decode (fetchBytes s)) (boundary s) := by
  have hfetch : fetchBytes (boundary s) = fetchBytes s := rfl
  simp [step, machineStep, hs, loopStep, hstop, hfetch]

/-- A Running machine with a stop request takes it. -/
theorem step_of_stop (hs : s.status = .running) (hstop : stopAsserted s = true) :
    step s = .next (takeStop (boundary s)) := by
  simp [step, machineStep, hs, loopStep, hstop]

/-- A Ready machine takes the host's turn. -/
theorem step_of_ready (hs : s.status = .ready) : step s = .next (readyTurn s) := by
  simp [step, machineStep, hs]

/-- So does a Halted one. -/
theorem step_of_halted (hs : s.status = .halted) : step s = .next (haltedTurn s) := by
  simp [step, machineStep, hs]

/-- What a Ready machine's turn can do: nothing but take the boundary's transaction, load an image, fault on a longer one,
or start the loop. -/
theorem readyTurn_cases (hs : s.status = .ready) :
    (hostCall s = none ∧ readyTurn s = nextHostCall s) ∨
      (∃ bytes, hostCall s = some (.loadImage bytes) ∧ bytes.length ≤ 256 ∧
        readyTurn s = { s with
          mem := Memory.ofBytes 0 bytes, hostCalls := s.hostCalls.tail, hostReplies := s.hostReplies ++ [.imageLoaded] }) ∨
      (∃ bytes, hostCall s = some (.loadImage bytes) ∧ 256 < bytes.length ∧
        readyTurn s = { enterFault .malformedImage bytes.length s with
          hostCalls := s.hostCalls.tail, hostReplies := s.hostReplies ++ [.malformedImage bytes.length] }) ∨
      (hostCall s = some .run ∧ readyTurn s = startLoop { nextHostCall s with runsWaiting := s.runsWaiting + 1 }) := by
  unfold readyTurn
  split
  · next h => exact .inl ⟨h, rfl⟩
  · next bytes h =>
    by_cases hb : bytes.length ≤ 256
    · exact .inr (.inl ⟨bytes, h, hb, by rw [loadImage_of_fits hs hb]⟩)
    · exact .inr (.inr (.inl ⟨bytes, h, by omega, by rw [loadImage_of_too_long hs (by omega)]⟩))
  · next h => exact .inr (.inr (.inr ⟨h, rfl⟩))

/-- The fetched bytes: those of the three addresses from `pc` on that lie inside memory. -/
theorem fetchBytes_eq (s : State) :
    fetchBytes s =
      if s.pc.toNat < 256 then
        s.mem.read s.pc.toNat ::
          if s.pc.toNat + 1 < 256 then
            s.mem.read (s.pc.toNat + 1) :: if s.pc.toNat + 2 < 256 then [s.mem.read (s.pc.toNat + 2)] else []
          else []
      else [] := by
  simp [fetchBytes, Memory.bytesFrom, Config.memorySize, Nat.add_assoc]

/-- A no-op answers the state with at most `pc` advanced. -/
theorem runNoop_next (op : BitVec 5) (ops : Operands) (s : State) :
    runNoop op ops s = .next s ∨ runNoop op ops s = .next (advance ops s s) := by
  unfold runNoop
  split
  · exact .inl rfl
  · exact .inr rfl

theorem run_succ_of_next (M : Host.Core) (k : Nat) {s t : M.State} (h : M.step s = .next t) :
    M.run (k + 1) s = M.run k t := by
  simp only [Host.Core.run, h]

/-- A run of one step more is the run from the next state. -/
theorem core_run_succ (k : Nat) {s t : State} (h : step s = .next t) :
    Sys2Proof.core.run (k + 1) s = Sys2Proof.core.run k t :=
  run_succ_of_next Sys2Proof.core k h

end Sys2Proof.Machine
end

