-- ==== Sys2Proof/Laws/WellFormed.lean ====
section
/-! SUPPORT. What the well-formedness checks say, as propositions. -/

namespace Sys2Proof

variable (i : Instr)

theorem Instr.slotAOk_iff : i.slotAOk = true ↔ (i.slotAIsRegister = true → i.operands.slotA.toNat ≤ 7) := by
  cases h : i.slotAIsRegister <;> simp [Instr.slotAOk, h]

theorem Instr.slotBOk_iff : i.slotBOk = true ↔ (i.slotBIsRegister = true → i.operands.slotB.toNat ≤ 7) := by
  cases h : i.slotBIsRegister <;> simp [Instr.slotBOk, h]

theorem Instr.wf_iff : i.wf = true ↔ i.slotAOk = true ∧ i.slotBOk = true := by
  simp [Instr.wf]

theorem Instr.slotAOk_false : i.slotAOk = false ↔ i.slotAIsRegister = true ∧ 7 < i.operands.slotA.toNat := by
  cases h : i.slotAIsRegister <;> simp [Instr.slotAOk, h]

theorem Instr.slotBOk_false : i.slotBOk = false ↔ i.slotBIsRegister = true ∧ 7 < i.operands.slotB.toNat := by
  cases h : i.slotBIsRegister <;> simp [Instr.slotBOk, h]

end Sys2Proof
end

