-- ==== Sys2Proof/Machine/Image.lean ====
section
/-! DEFINITION. The text format of a program image (R60), which the host-side loader reads before any `load_image`.
It stands outside the CORE (00_scope.md section 3); nothing in the step uses it. -/

namespace Sys2Proof.Machine

/-- R60: a line without its comment: what stands before the first `#`. -/
def stripComment (line : List Char) : List Char :=
  line.takeWhile fun c => c ≠ '#'

/-- R60 (the spec's decision D29): a line without the white space around it. -/
def trimLine (line : List Char) : List Char :=
  ((line.dropWhile Char.isWhitespace).reverse.dropWhile Char.isWhitespace).reverse

/-- R60: a binary digit. -/
def binaryDigit (c : Char) : Option Nat :=
  if c = '0' then some 0 else if c = '1' then some 1 else none

/-- The number a string of binary digits writes, its first digit the most significant. -/
def binaryNumeral : Nat → List Char → Option Nat
  | acc, [] => some acc
  | acc, c :: cs =>
    match binaryDigit c with
    | some d => binaryNumeral (2 * acc + d) cs
    | none => none

/-- R60: the bytes of one line: none for MalformedImage, no byte for a blank line, else one byte. -/
def parseLine (line : List Char) : Option (List Byte) :=
  match trimLine (stripComment line) with
  | [] => some []
  | digits =>
    if digits.length = 8 then
      match binaryNumeral 0 digits with
      | some v => some [BitVec.ofNat 8 v]
      | none => none
    else none

/-- The lines of a text. -/
def textLines : List Char → List (List Char)
  | [] => [[]]
  | c :: cs =>
    if c = '\n' then [] :: textLines cs
    else
      match textLines cs with
      | line :: later => (c :: line) :: later
      | [] => [[c]]

/-- The images of the lines, joined; none when one of them is malformed. -/
def joinLines : List (List Char) → Option (List Byte)
  | [] => some []
  | line :: later =>
    match parseLine line, joinLines later with
    | some bytes, some rest => some (bytes ++ rest)
    | _, _ => none

/-- R60: the image a program text writes, from address 0 on; none for the loader's own MalformedImage. -/
def parseImage (text : List Char) : Option (List Byte) :=
  joinLines (textLines text)

end Sys2Proof.Machine
end

