-- ==== Sys2Proof/Tests/Slice0.lean ====
section
/-! SUPPORT. The model's own tests, their expected results taken from spec/95_test_vectors.md (the vector's id stands in each
comment) or from the tables of spec/, and for every statement with hypotheses a theorem whose state and operands meet them. -/

namespace Sys2Proof.Tests

open Sys2Proof.Machine

/-- A Running machine, otherwise as after reset, with `bytes` stored from `pc` on. -/
def machineAt (pc : Pc) (bytes : List Byte) : State :=
  { State.reset with mem := Memory.ofBytes pc.toNat bytes, pc := pc, status := .running }

/-- The next state of an outcome. -/
def nextOf : Result → Option State
  | .next t => some t
  | .fault _ => none
  | .refused _ => none

/-- The state after one step. -/
def afterStep (s : State) : Option State :=
  nextOf (step s)

/-- What a test looks at after one step. -/
def look {α : Type} (s : State) (f : State → α) : Option α :=
  (afterStep s).map f

/-- The state after one step is that of fault entry, whole. -/
def faults (s : State) (cause : FaultCause) (info : Nat) : Prop :=
  afterStep s = some (faultState cause info s)

/-! ## Well-formedness: each check refuses an ill-formed term -/

theorem test_wf_refuses_register_8_in_slot_a : (Instr.ldi (.two 0x08#8 0x00#8)).wf = false := by decide

theorem test_wf_refuses_register_255_in_slot_b : (Instr.add (.two 0x00#8 0xFF#8)).wf = false := by decide

theorem test_wf_names_the_slot :
    (Instr.cmp (.two 0x08#8 0x00#8)).slotAOk = false ∧ (Instr.cmp (.two 0x00#8 0x08#8)).slotBOk = false := by decide

theorem test_wf_admits_immediates_and_unused_slots :
    (Instr.ldi (.two 0x07#8 0xFF#8)).wf = true ∧ (Instr.hlt (.two 0xAA#8 0xBB#8)).wf = true ∧
      (Instr.push (.two 0x07#8 0xFF#8)).wf = true ∧ (Instr.add .zero).wf = true := by decide

/-! ## Decoding: one word of every instruction, bit by bit from the table of R53 and the layout of R47 -/

theorem test_decode_hlt : decode [0b00000001#8] = .instr (.hlt .zero) [] := by decide

theorem test_decode_ldi : decode [0b10000010#8, 5#8, 9#8] = .instr (.ldi (.two 5#8 9#8)) [] := by decide

theorem test_decode_push : decode [0b01000101#8, 3#8] = .instr (.push (.one 3#8)) [] := by decide

theorem test_decode_pop : decode [0b01000110#8, 3#8] = .instr (.pop (.one 3#8)) [] := by decide

theorem test_decode_prn : decode [0b01000111#8, 3#8] = .instr (.prn (.one 3#8)) [] := by decide

theorem test_decode_call : decode [0b01010000#8, 3#8] = .instr (.call (.one 3#8)) [] := by decide

theorem test_decode_ret : decode [0b00010001#8] = .instr (.ret .zero) [] := by decide

theorem test_decode_jmp : decode [0b01010100#8, 3#8] = .instr (.jmp (.one 3#8)) [] := by decide

theorem test_decode_jeq : decode [0b01010101#8, 3#8] = .instr (.jeq (.one 3#8)) [] := by decide

theorem test_decode_jne : decode [0b01010110#8, 3#8] = .instr (.jne (.one 3#8)) [] := by decide

theorem test_decode_add : decode [0b10100000#8, 1#8, 2#8] = .instr (.add (.two 1#8 2#8)) [] := by decide

theorem test_decode_sub : decode [0b10100001#8, 1#8, 2#8] = .instr (.sub (.two 1#8 2#8)) [] := by decide

theorem test_decode_mul : decode [0b10100010#8, 1#8, 2#8] = .instr (.mul (.two 1#8 2#8)) [] := by decide

theorem test_decode_div : decode [0b10100011#8, 1#8, 2#8] = .instr (.div (.two 1#8 2#8)) [] := by decide

theorem test_decode_cmp : decode [0b10100111#8, 1#8, 2#8] = .instr (.cmp (.two 1#8 2#8)) [] := by decide

/-- R49, R55, R57: 0xFF has N = 3, 0xA8 is LS-8's AND, 0x52 LS-8's INT, and a word without its operand byte. -/
theorem test_decode_of_unassigned_words :
    decode [0xFF#8, 0#8, 0#8] = .illegalOperandCount 0xFF#8 ∧ decode [0xA8#8, 0#8, 1#8] = .unsupportedOperation 8#5 ∧
      decode [0x52#8, 0#8] = .noop 18#5 (.one 0#8) [] ∧ decode [0x82#8, 0#8] = .missingByte 2 := by decide

/-- R53, R54: the words of the canonical-encoding table, from the encoder. -/
theorem test_encode_canonical :
    encode (.ldi (.two 0#8 8#8)) = [0x82#8, 0#8, 8#8] ∧ encode (.call (.one 1#8)) = [0x50#8, 1#8] ∧
      encode (.ret .zero) = [0x11#8] ∧ encode (.cmp (.two 0#8 1#8)) = [0xA7#8, 0#8, 1#8] := by decide

/-- A table word of 24 bits, LDI R5,9: the word in the low byte, then its operands; and the 8 bits of a PRN whose operand
word the table leaves out. -/
theorem test_decodeTableWord :
    decodeTableWord 24 0x090582 = some (.ldi (.two 5#8 9#8)) ∧ decodeTableWord 8 0x47 = some (.prn (.one 0#8)) ∧
      decodeTableWord 8 0xC0 = none := by decide

/-- The instruction that `withFetchWord` places after reset is the one the next step runs. -/
theorem test_withFetchWord :
    look (State.reset.withFetchWord 24 0x090582) (fun t => (t.reg 5, t.pc, t.status)) =
      some (9#8, 3#9, .running) := by decide

/-! ## One step of each instruction -/

/-- E1, V22: the sum wraps, and SP is a register like any other. -/
theorem test_add :
    look ((machineAt 0 [0xA0#8, 0#8, 1#8]).setReg 0 0xFF#8 |>.setReg 1 1#8) (fun t => (t.reg 0, t.reg 1, t.pc, t.fl)) =
      some (0x00#8, 1#8, 3#9, 0#8) ∧
    look ((machineAt 0 [0xA0#8, 7#8, 1#8]).setReg 1 2#8) (fun t => t.reg 7) = some 0xF6#8 := by decide

/-- V12: ADD with N = 1 reads register 0 for slot b. -/
theorem test_add_one_operand :
    look ((machineAt 0 [0x60#8, 1#8]).setReg 0 2#8 |>.setReg 1 3#8) (fun t => (t.reg 1, t.pc)) = some (5#8, 2#9) := by decide

/-- V23, V25. -/
theorem test_sub :
    look ((machineAt 0 [0xA1#8, 0#8, 1#8]).setReg 0 3#8 |>.setReg 1 5#8) (fun t => (t.reg 0, t.reg 1)) =
      some (0xFE#8, 5#8) ∧
    look ((machineAt 0 [0xA1#8, 2#8, 2#8]).setReg 2 0x77#8) (fun t => t.reg 2) = some 0#8 := by decide

/-- V26, V28. -/
theorem test_mul :
    look ((machineAt 0 [0xA2#8, 0#8, 1#8]).setReg 0 8#8 |>.setReg 1 9#8) (fun t => t.reg 0) = some 0x48#8 ∧
    look ((machineAt 0 [0xA2#8, 0#8, 1#8]).setReg 0 0xFF#8 |>.setReg 1 0xFF#8) (fun t => t.reg 0) = some 1#8 := by decide

/-- V30, V31. -/
theorem test_div :
    look ((machineAt 0 [0xA3#8, 0#8, 1#8]).setReg 0 7#8 |>.setReg 1 2#8) (fun t => (t.reg 0, t.reg 1)) = some (3#8, 2#8) ∧
    look ((machineAt 0 [0xA3#8, 0#8, 1#8]).setReg 0 2#8 |>.setReg 1 3#8) (fun t => t.reg 0) = some 0#8 := by decide

/-- E10, V36: DivideByZero with the divisor's index; a register index above 7 comes first. -/
theorem test_div_faults :
    faults ((machineAt 0 [0xA3#8, 0#8, 1#8]).setReg 0 9#8) .divideByZero 1 ∧
    faults ((machineAt 0 [0xA3#8, 0#8, 9#8]).setReg 0 9#8) .registerIndexOutOfRange 9 := by
  unfold faults
  decide

/-- E3, E4, V37: less, greater, unsigned. -/
theorem test_cmp :
    look ((machineAt 0 [0xA7#8, 0#8, 1#8]).setReg 0 5#8 |>.setReg 1 10#8) (fun t => (t.fl, t.pc)) = some (4#8, 3#9) ∧
    look ((machineAt 0 [0xA7#8, 0#8, 1#8]).setReg 0 10#8 |>.setReg 1 5#8) (fun t => t.fl) = some 2#8 ∧
    look ((machineAt 0 [0xA7#8, 0#8, 1#8]).setReg 1 0xFF#8) (fun t => t.fl) = some 4#8 := by decide

/-- V39: the old flag is cleared. -/
theorem test_cmp_clears :
    look { (machineAt 0 [0xA7#8, 3#8, 3#8]).setReg 3 9#8 with fl := 4#8 } (fun t => (t.fl, t.reg 3)) =
      some (1#8, 9#8) := by decide

/-- V43, V18: an immediate; an instruction that ends at address 255. -/
theorem test_ldi :
    look (machineAt 0 [0x82#8, 0#8, 8#8]) (fun t => (t.reg 0, t.pc)) = some (8#8, 3#9) ∧
    look (machineAt 253 [0x82#8, 0#8, 7#8]) (fun t => (t.reg 0, t.pc, t.status)) = some (7#8, 256#9, .running) := by decide

/-- V10, V46: the missing immediate is 0; register 8 faults. -/
theorem test_ldi_corners :
    look ((machineAt 0 [0x42#8, 3#8]).setReg 3 9#8) (fun t => (t.reg 3, t.pc)) = some (0#8, 2#9) ∧
    faults (machineAt 0 [0x82#8, 8#8, 1#8]) .registerIndexOutOfRange 8 := by
  unfold faults
  decide

/-- V47, V48. -/
theorem test_prn :
    look ((machineAt 0 [0x47#8, 0#8]).setReg 0 72#8) (fun t => (t.out, t.pc)) = some ([72#8], 2#9) ∧
    look (machineAt 0 [0x47#8, 7#8]) (fun t => t.out) = some [0xF4#8] := by decide

/-- V50. -/
theorem test_prn_fault : faults (machineAt 0 [0x47#8, 0x0C#8]) .registerIndexOutOfRange 12 := by
  unfold faults
  decide

/-- V11, V52: operand bytes of HLT are skipped unchecked; HLT at address 255 raises nothing. -/
theorem test_hlt :
    look (machineAt 0 [0x81#8, 0xAA#8, 0xBB#8]) (fun t => (t.status, t.reason, t.pc)) = some (.halted, .hlt, 3#9) ∧
    look (machineAt 255 [0x01#8]) (fun t => (t.status, t.reason, t.pc, t.fault)) = some (.halted, .hlt, 256#9, none) := by
  decide

/-- V53, V54: PUSH R0; PUSH SP stores the decremented SP. -/
theorem test_push :
    look ((machineAt 0 [0x45#8, 0#8]).setReg 0 0x2A#8) (fun t => (t.reg 7, t.mem.read 0xF3, t.pc)) =
      some (0xF3#8, 0x2A#8, 2#9) ∧
    look (machineAt 0 [0x45#8, 7#8]) (fun t => (t.reg 7, t.mem.read 0xF3)) = some (0xF3#8, 0xF3#8) := by decide

/-- V55: SP wraps. -/
theorem test_push_wraps :
    look ((machineAt 0 [0x45#8, 1#8]).setReg 7 0#8 |>.setReg 1 0x33#8) (fun t => (t.reg 7, t.mem.read 0xFF)) =
      some (0xFF#8, 0x33#8) := by decide

/-- V57, V58: POP R1; POP SP increments the byte it has read. -/
theorem test_pop :
    look ({ machineAt 0 [0x46#8, 1#8] with mem := [(0, 0x46#8), (1, 1#8), (0xF3, 0x2A#8)] }.setReg 7 0xF3#8)
      (fun t => (t.reg 1, t.reg 7, t.mem.read 0xF3)) = some (0x2A#8, 0xF4#8, 0x2A#8) ∧
    look ({ machineAt 0 [0x46#8, 7#8] with mem := [(0, 0x46#8), (1, 7#8), (0xF3, 0x10#8)] }.setReg 7 0xF3#8)
      (fun t => t.reg 7) = some 0x11#8 := by decide

/-- V59: SP wraps. -/
theorem test_pop_wraps :
    look ({ machineAt 0 [0x46#8, 2#8] with mem := [(0, 0x46#8), (1, 2#8), (0xFF, 0x44#8)] }.setReg 7 0xFF#8)
      (fun t => (t.reg 2, t.reg 7)) = some (0x44#8, 0x00#8) := by decide

/-- V63, V64: the return address is pushed; CALL SP jumps to the decremented SP. -/
theorem test_call :
    look ((machineAt 6 [0x50#8, 1#8]).setReg 1 0x0B#8) (fun t => (t.reg 7, t.mem.read 0xF3, t.pc)) =
      some (0xF3#8, 0x08#8, 0x0B#9) ∧
    look (machineAt 6 [0x50#8, 7#8]) (fun t => (t.reg 7, t.mem.read 0xF3, t.pc)) = some (0xF3#8, 0x08#8, 0xF3#9) := by
  decide

/-- V66, V67: a return address of 256 faults, after the register check. -/
theorem test_call_faults :
    faults ((machineAt 254 [0x50#8, 1#8]).setReg 1 3#8) .addressOutOfBounds 256 ∧
    faults (machineAt 254 [0x50#8, 9#8]) .registerIndexOutOfRange 9 := by
  unfold faults
  decide

/-- V70, V71. -/
theorem test_ret :
    look ({ machineAt 0 [] with mem := [(0, 0x11#8), (0xF3, 8#8)] }.setReg 7 0xF3#8) (fun t => (t.ra, t.reg 7, t.pc)) =
      some (8#8, 0xF4#8, 8#9) ∧
    look ({ machineAt 0 [] with mem := [(0, 0x11#8), (0xFF, 0x30#8)] }.setReg 7 0xFF#8) (fun t => (t.ra, t.reg 7, t.pc)) =
      some (0x30#8, 0x00#8, 0x30#9) := by decide

/-- V73, V75, V76. -/
theorem test_jmp :
    look ((machineAt 6 [0x54#8, 2#8]).setReg 2 9#8) (fun t => t.pc) = some 9#9 ∧
    look (machineAt 0 [0x54#8, 7#8]) (fun t => t.pc) = some 0xF4#9 ∧
    faults (machineAt 0 [0x54#8, 8#8]) .registerIndexOutOfRange 8 := by
  unfold faults
  decide

/-- V77, V78, V80: taken, not taken, and the target checked although not taken. -/
theorem test_jeq :
    look { (machineAt 12 [0x55#8, 2#8]).setReg 2 0x13#8 with fl := 1#8 } (fun t => t.pc) = some 0x13#9 ∧
    look { (machineAt 12 [0x55#8, 2#8]).setReg 2 0x13#8 with fl := 4#8 } (fun t => t.pc) = some 14#9 ∧
    faults { machineAt 12 [0x55#8, 8#8] with fl := 4#8 } .registerIndexOutOfRange 8 := by
  unfold faults
  decide

/-- V82, V83, V84. -/
theorem test_jne :
    look { (machineAt 20 [0x56#8, 3#8]).setReg 3 12#8 with fl := 2#8 } (fun t => t.pc) = some 12#9 ∧
    look { (machineAt 20 [0x56#8, 3#8]).setReg 3 12#8 with fl := 1#8 } (fun t => t.pc) = some 22#9 ∧
    look ((machineAt 20 [0x56#8, 3#8]).setReg 3 12#8) (fun t => t.pc) = some 12#9 := by decide

/-! ## Unassigned words, decode faults, the host -/

/-- V2, V4: a no-op that advances. -/
theorem test_noop : look (machineAt 0 [0x40#8, 9#8]) (fun t => t.pc) = some 2#9 ∧
    look (machineAt 0 [0x0F#8]) (fun t => t.pc) = some 1#9 := by decide

/-- V5, V6: a no-op with P = 1 changes nothing at all. -/
theorem test_noop_hangs : afterStep (machineAt 0 [0x12#8]) = some (machineAt 0 [0x12#8]) ∧
    afterStep (machineAt 0 [0x52#8, 0#8]) = some (machineAt 0 [0x52#8, 0#8]) := by decide

/-- V8, V14, V16, V17, V19. -/
theorem test_decode_faults :
    faults (machineAt 0 [0xE7#8]) .illegalOperandCount 0xE7 ∧
    faults (machineAt 0 [0xA4#8, 9#8, 9#8]) .unsupportedOperation 4 ∧
    faults (machineAt 256 []) .addressOutOfBounds 256 ∧
    faults (machineAt 254 [0x82#8, 0#8]) .addressOutOfBounds 256 ∧
    faults (machineAt 255 [0x47#8]) .addressOutOfBounds 256 := by
  unfold faults
  decide

/-- V90, V92: the stop is taken before the first instruction, with the trace record; bytes above 255 are absent. -/
theorem test_stop :
    look { machineAt 0 [0x82#8, 0#8, 3#8] with stopReq := [true] } (fun t => (t.status, t.reason, t.fault, t.pc)) =
      some (.halted, .stopped, none, 0#9) ∧
    look { machineAt 0 [0x82#8, 0#8, 3#8] with stopReq := [true] } (fun t => t.trace) =
      some [{ pc := 0#9, byte0 := some 0x82#8, byte1 := some 0#8, byte2 := some 3#8,
              regs := #v[0#8, 0#8, 0#8, 0#8, 0#8, 0#8, 0#8, 0xF4#8] }] ∧
    look { machineAt 255 [0x07#8] with stopReq := [true] } (fun t => t.trace.map fun r => (r.byte0, r.byte1, r.byte2)) =
      some [(some 7#8, none, none)] := by decide

/-- V86, V88, V89: an image too long, the last load wins, a load refused. -/
theorem test_load_image :
    (∀ bytes : List Byte, bytes.length = 257 →
      loadImage bytes State.reset = (.malformedImage 257, faultState .malformedImage 257 State.reset)) ∧
    (loadImage [0x82#8, 0#8, 8#8] (loadImage [1#8, 2#8, 3#8, 4#8] State.reset).2).2.mem = [(0, 0x82#8), (2, 8#8)] ∧
    loadImage [1#8] (machineAt 0 []) = (.imageRefused, machineAt 0 []) := by
  exact ⟨fun bytes h => by simp [loadImage, State.reset, enterFault, h], by decide, by decide⟩

/-- V95: the condition and the address reach the host. -/
theorem test_read_mem :
    readMem State.reset 256 = .raised .addressOutOfBounds 256 ∧ readMem State.reset 300 = .raised .addressOutOfBounds 300 ∧
      readMem State.reset 255 = .byte 0#8 := by decide

/-- R94: code 0 is no fault, code 2 DivideByZero. -/
theorem test_fault_codes :
    faultCode State.reset.fault = 0 ∧ faultCode (some { cause := .divideByZero, pc := 0#9, info := 1 }) = 2 := by decide

/-- R23: with no transaction a Ready CORE stays Ready; while Running a `load_image` is refused in the step itself, here of
a program that hangs (V5). -/
theorem test_host_between_steps :
    afterStep State.reset = some State.reset ∧
    look { machineAt 0 [0x12#8] with hostCalls := [some (.loadImage [1#8])] } (fun t => (t.hostReplies, t.mem, t.pc)) =
      some ([.imageRefused], [(0, 0x12#8)], 0#9) := by decide

/-- E8 with V94: from reset an image `01` is loaded and run, and the `run()` returns; so does another one. -/
theorem test_run_from_reset :
    let ready := { State.reset with hostCalls := [some (.loadImage [1#8]), some .run, none, some .run] }
    (((afterStep ready).bind afterStep).bind afterStep).bind afterStep =
      some { State.reset with
        mem := [(0, 1#8)], pc := 1#9, status := .halted, reason := .hlt,
        hostReplies := [.imageLoaded, .runReturned .hlt none, .runReturned .hlt none] } := by decide

/-- E12: the image of a program text. -/
theorem test_parse_image :
    parseImage "10000010 # LDI\n\n00000000\n00001000".toList = some [0x82#8, 0#8, 8#8] ∧
      parseImage "1000001".toList = none := by decide

/-! ## Witnesses: for every statement with hypotheses, states and operands that meet them, one for each clause -/

/-- The premises of `FaultsWhileDecoding` for an instruction's word with N = 0, each clause at the end of memory. -/
def FaultsWhileDecodingMet (key : Byte) : Prop :=
  (Executes (machineAt 255 [key ||| 0xC0#8]) ∧ (machineAt 255 [key ||| 0xC0#8]).mem.read 255 = key ||| 0xC0#8) ∧
  (Executes (machineAt 255 [key ||| 0x40#8]) ∧ (machineAt 255 [key ||| 0x40#8]).mem.read 255 = key ||| 0x40#8) ∧
  (Executes (machineAt 254 [key ||| 0x80#8]) ∧ (machineAt 254 [key ||| 0x80#8]).mem.read 254 = key ||| 0x80#8)

theorem witness_DecodedInstructionReencodesToItsBytes : decode [0x82#8, 7#8, 0xFF#8, 1#8] =
    .instr (.ldi (.two 7#8 0xFF#8)) [1#8] := by decide

/-- A word of each legal N; two words that agree in bits 5:0; an ALU-class word; a handler word. -/
theorem witness_DispatchIsKeyedOnAluFlagAndOpcode :
    (operandCountField 0x22#8 = 0#2 ∧ operandCountField 0x62#8 = 1#2 ∧ operandCountField 0xA2#8 = 2#2) ∧
    (0x22#8 &&& 0x3F#8 = 0xA2#8 &&& 0x3F#8 ∧ 0x22#8 ≠ 0xA2#8) ∧ aluFlag 0xA2#8 = true ∧ aluFlag 0x82#8 = false := by
  decide

theorem witness_StepRunsTheDecodedInstruction :
    Executes (machineAt 253 [0x82#8, 7#8, 1#8]) ∧
      decode (fetchBytes (machineAt 253 [0x82#8, 7#8, 1#8])) = .instr (.ldi (.two 7#8 1#8)) [] := by decide

/-- The six clauses, each at its boundary. -/
theorem witness_FetchReadsTheWordThenItsOperandBytes :
    (Executes (machineAt 256 []) ∧ (machineAt 256 []).pc = 256#9) ∧
    (Executes (machineAt 255 [0x47#8]) ∧ operandCountField ((machineAt 255 [0x47#8]).mem.read 255) = 1#2) ∧
    (Executes (machineAt 255 [0x82#8]) ∧ operandCountField ((machineAt 255 [0x82#8]).mem.read 255) = 2#2) ∧
    (Executes (machineAt 254 [0x82#8, 0#8]) ∧ operandCountField ((machineAt 254 [0x82#8, 0#8]).mem.read 254) = 2#2) ∧
    (Executes (machineAt 255 [0x01#8]) ∧ operandCountField ((machineAt 255 [0x01#8]).mem.read 255) = 0#2) ∧
    (Executes (machineAt 254 [0x47#8]) ∧ operandCountField ((machineAt 254 [0x47#8]).mem.read 254) = 1#2) ∧
    (Executes (machineAt 253 [0x82#8]) ∧ operandCountField ((machineAt 253 [0x82#8]).mem.read 253) = 2#2) := by decide

theorem witness_OperandCountThreeFaults :
    Executes (machineAt 255 [0xC0#8]) ∧ operandCountField ((machineAt 255 [0xC0#8]).mem.read 255) = 3#2 := by decide

/-- Opcodes 4 and 31, the second with both operand bytes at the end of memory; and the faults that come first. -/
theorem witness_UnassignedAluOperationFaults :
    (operandCountField 0x24#8 = 0#2 ∧ FaultsWhileDecodingMet 0x24#8) ∧
    (Executes (machineAt 255 [0x24#8]) ∧ aluFlag 0x24#8 = true ∧ (opcodeField 0x24#8).toNat ∉ [0, 1, 2, 3, 7]) ∧
    (Executes (machineAt 253 [0xBF#8]) ∧ (machineAt 253 [0xBF#8]).mem.read 253 = 0xBF#8 ∧
      253 + (operandCountField 0xBF#8).toNat ≤ 255 ∧ aluFlag 0xBF#8 = true ∧
      (opcodeField 0xBF#8).toNat ∉ [0, 1, 2, 3, 7]) := by
  unfold FaultsWhileDecodingMet
  decide

/-- Opcodes 15 and 18, on the two sides of P. -/
theorem witness_UnassignedHandlerWordIsANoop :
    (Executes (machineAt 253 [0x8F#8]) ∧ (machineAt 253 [0x8F#8]).mem.read 253 = 0x8F#8 ∧
      253 + (operandCountField 0x8F#8).toNat ≤ 255 ∧ aluFlag 0x8F#8 = false ∧ (opcodeField 0x8F#8).toNat = 15) ∧
    (Executes (machineAt 255 [0x12#8]) ∧ (machineAt 255 [0x12#8]).mem.read 255 = 0x12#8 ∧
      (operandCountField 0x12#8).toNat = 0 ∧ aluFlag 0x12#8 = false ∧ (opcodeField 0x12#8).toNat = 18) := by decide

/-- Two conditions at once (an unassigned sub-opcode and a register index above 7), and none. -/
theorem witness_StepReportsTheFirstFaultInPriorityOrder :
    (Executes (machineAt 0 [0xA4#8, 9#8, 9#8]) ∧
      firstFault (machineAt 0 [0xA4#8, 9#8, 9#8]) = some (.unsupportedOperation, 4)) ∧
    (Executes (machineAt 0 [0x01#8]) ∧ firstFault (machineAt 0 [0x01#8]) = none) := by decide

theorem witness_OnlyHltAndFaultsHalt :
    (∃ t, exec (.hlt .zero) (machineAt 0 []) = .next t ∧ (machineAt 0 []).status = .running ∧ t.status = .halted) ∧
    (∃ t, exec (.prn (.one 8#8)) (machineAt 0 []) = .next t ∧ (machineAt 0 []).status = .running ∧ t.status = .halted) :=
  ⟨⟨_, rfl, rfl, rfl⟩, ⟨_, rfl, rfl, rfl⟩⟩

/-- A Halted CORE from which one `run()` has not returned, and on which the host makes transactions. -/
theorem witness_HaltedIsTerminal :
    { State.reset with
      status := .halted, reason := .hlt, hostCalls := [some (.loadImage []), none, some .run], runsWaiting := 1 }.status =
      .halted := rfl

/-- From Ready (no transaction, an image, an image too long, `run()`), from Running (a no-op, HLT, a fault, a stop) and from
Halted. -/
theorem witness_LifecycleHasNoOtherTransition :
    look State.reset (fun t => t.status) = some .ready ∧
    look { State.reset with hostCalls := [some (.loadImage [1#8])] } (fun t => t.status) = some .ready ∧
    look { State.reset with hostCalls := [some .run] } (fun t => t.status) = some .running ∧
    look (machineAt 0 []) (fun t => t.status) = some .running ∧
    look (machineAt 0 [1#8]) (fun t => (t.status, t.reason)) = some (.halted, .hlt) ∧
    look (machineAt 256 []) (fun t => (t.status, t.reason)) = some (.halted, .fault) ∧
    look { machineAt 0 [] with stopReq := [true] } (fun t => (t.status, t.reason)) = some (.halted, .stopped) ∧
    look { State.reset with status := .halted, reason := .stopped } (fun t => (t.status, t.reason)) =
      some (.halted, .stopped) := by decide

/-- At 253 all three bytes exist, at 254 and 255 some, at 256 none. -/
theorem witness_StopRequestIsTakenBeforeTheFetch :
    ∀ pc ∈ [253#9, 254#9, 255#9, 256#9],
      { machineAt pc [] with stopReq := [true] }.status = .running ∧
        stopAsserted { machineAt pc [] with stopReq := [true] } = true := by decide

theorem witness_StopRequestHasNoEffectOutsideRunning :
    (State.reset.status ≠ .running ∧ ∃ t, step State.reset = .next t) ∧
    ({ State.reset with status := .halted, reason := .hlt }.status ≠ .running ∧
      ∃ t, step { State.reset with status := .halted, reason := .hlt } = .next t) :=
  ⟨⟨by decide, _, rfl⟩, ⟨by decide, _, rfl⟩⟩

/-- The invariant holds of a Running machine that is about to store, and it takes the step. -/
theorem running_inv : ((machineAt 0 [0x45#8, 7#8]).Inv) where
  mem_wf := by decide
  pc_le := by decide
  fl_legal := by decide
  ready_fresh := by decide
  reason_none := by decide
  fault_recorded := by decide
  fault_legal := fun f h => by cases h
  trace_one := by decide

theorem witness_EveryStepKeepsTheInvariant :
    (machineAt 0 [0x45#8, 7#8]).Inv ∧ ∃ t, step (machineAt 0 [0x45#8, 7#8]) = .next t :=
  ⟨running_inv, _, rfl⟩

/-- The premises the result statements of one register operand share: the operand names R7, with 0 to 2 operand bytes, the
instruction ending at address 255. -/
theorem witness_of_one_register_operand :
    ((Operands.two 7#8 0xFF#8).slotA.toNat = (7 : RegIndex).val ∧ Fits (.two 7#8 0xFF#8) (machineAt 253 [])) ∧
    ((Operands.one 7#8).slotA.toNat = (7 : RegIndex).val ∧ Fits (.one 7#8) (machineAt 254 [])) ∧
    (Operands.zero.slotA.toNat = (0 : RegIndex).val ∧ Fits .zero (machineAt 255 [])) := by decide

/-- The same with two register operands, equal and distinct. -/
theorem witness_of_two_register_operands :
    ((Operands.two 7#8 0#8).slotA.toNat = (7 : RegIndex).val ∧ (Operands.two 7#8 0#8).slotB.toNat = (0 : RegIndex).val ∧
      Fits (.two 7#8 0#8) (machineAt 253 [])) ∧
    (Operands.zero.slotA.toNat = (0 : RegIndex).val ∧ Operands.zero.slotB.toNat = (0 : RegIndex).val ∧
      Fits .zero (machineAt 255 [])) := by decide

/-- The premises of `ChecksA` and of `ChecksB`, with the smallest byte that names no register. -/
theorem witness_of_ChecksA_and_ChecksB :
    7 < (Operands.one 8#8).slotA.toNat ∧ (Operands.two 7#8 8#8).slotA.toNat ≤ 7 ∧
      7 < (Operands.two 7#8 8#8).slotB.toNat := by decide

theorem witness_AddStoresTheSumMod256 :
    FaultsWhileDecodingMet 0x20#8 ∧ (Operands.two 7#8 0#8).slotA.toNat = (7 : RegIndex).val ∧
      (Operands.two 7#8 0#8).slotB.toNat = (0 : RegIndex).val ∧ Fits (.two 7#8 0#8) (machineAt 253 []) := by
  unfold FaultsWhileDecodingMet
  decide

theorem witness_SubStoresTheDifferenceMod256 :
    FaultsWhileDecodingMet 0x21#8 ∧ (Operands.two 7#8 0#8).slotA.toNat = (7 : RegIndex).val ∧
      (Operands.two 7#8 0#8).slotB.toNat = (0 : RegIndex).val ∧ Fits (.two 7#8 0#8) (machineAt 253 []) := by
  unfold FaultsWhileDecodingMet
  decide

theorem witness_MulStoresTheProductMod256 :
    FaultsWhileDecodingMet 0x22#8 ∧ (Operands.two 7#8 0#8).slotA.toNat = (7 : RegIndex).val ∧
      (Operands.two 7#8 0#8).slotB.toNat = (0 : RegIndex).val ∧ Fits (.two 7#8 0#8) (machineAt 253 []) := by
  unfold FaultsWhileDecodingMet
  decide

theorem witness_DivStoresTheIntegerQuotient :
    (Operands.two 0#8 7#8).slotA.toNat = (0 : RegIndex).val ∧ (Operands.two 0#8 7#8).slotB.toNat = (7 : RegIndex).val ∧
      Fits (.two 0#8 7#8) (machineAt 253 []) ∧ (machineAt 253 []).reg 7 ≠ 0x00#8 := by decide

/-- Also a register divided by itself while it holds 0, and a register index above 7 in either slot. -/
theorem witness_DivideByZeroFaults :
    ((Operands.two 7#8 0#8).slotA.toNat = (7 : RegIndex).val ∧ (Operands.two 7#8 0#8).slotB.toNat = (0 : RegIndex).val ∧
      (machineAt 0 []).reg 0 = 0x00#8) ∧
    (Operands.zero.slotA.toNat = (0 : RegIndex).val ∧ Operands.zero.slotB.toNat = (0 : RegIndex).val) ∧
    (7 < (Operands.two 8#8 0#8).slotA.toNat ∧ (Operands.two 7#8 8#8).slotA.toNat ≤ 7 ∧
      7 < (Operands.two 7#8 8#8).slotB.toNat) := by decide

/-- Of two registers that differ. -/
theorem witness_CmpSetsExactlyOneFlag :
    Fits (.two 0#8 7#8) (machineAt 253 []) ∧ (Operands.two 0#8 7#8).slotA.toNat = (0 : RegIndex).val ∧
      (Operands.two 0#8 7#8).slotB.toNat = (7 : RegIndex).val ∧
      ((machineAt 253 []).reg 0).toNat < ((machineAt 253 []).reg 7).toNat := by decide

theorem witness_LdiStoresTheImmediate :
    FaultsWhileDecodingMet 0x02#8 ∧ (Operands.two 7#8 0xFF#8).slotA.toNat = (7 : RegIndex).val ∧
      Fits (.two 7#8 0xFF#8) (machineAt 253 []) ∧ (Operands.one 7#8).slotA.toNat = (7 : RegIndex).val ∧
      Fits (.one 7#8) (machineAt 254 []) := by
  unfold FaultsWhileDecodingMet
  decide

theorem witness_PrnEmitsTheRegister :
    (Operands.one 7#8).slotA.toNat = (7 : RegIndex).val ∧ Fits (.one 7#8) (machineAt 254 []) := by decide

theorem witness_HltHaltsAndAdvances : Fits (.two 0xFF#8 0xFF#8) (machineAt 253 []) ∧ Fits .zero (machineAt 255 []) := by
  decide

/-- Of R7 and of another register. -/
theorem witness_PushStoresBelowTheStackPointer :
    ((Operands.one 7#8).slotA.toNat = (7 : RegIndex).val ∧ Fits (.one 7#8) (machineAt 254 [])) ∧
    ((Operands.one 6#8).slotA.toNat = (6 : RegIndex).val ∧ Fits (.one 6#8) (machineAt 254 [])) := by decide

theorem witness_PopLoadsFromTheStackPointer :
    ((Operands.one 7#8).slotA.toNat = (7 : RegIndex).val ∧ Fits (.one 7#8) (machineAt 254 [])) ∧
    ((Operands.one 6#8).slotA.toNat = (6 : RegIndex).val ∧ Fits (.one 6#8) (machineAt 254 [])) := by decide

/-- The last place at which a CALL's return address is in range. -/
theorem witness_CallPushesTheReturnAddressAndJumps :
    (Operands.one 7#8).slotA.toNat = (7 : RegIndex).val ∧
      (machineAt 253 []).pc.toNat + (Operands.one 7#8).count + 1 = 255 := by decide

theorem witness_CallWithReturnAddress256Faults :
    (Operands.one 7#8).slotA.toNat = (7 : RegIndex).val ∧
      (machineAt 254 []).pc.toNat + (Operands.one 7#8).count + 1 = 256 := by decide

theorem witness_JmpJumpsToTheRegister :
    FaultsWhileDecodingMet 0x14#8 ∧ (Operands.one 7#8).slotA.toNat = (7 : RegIndex).val := by
  unfold FaultsWhileDecodingMet
  decide

/-- With E clear and with E set. -/
theorem witness_JeqAndJneTestTheEqualFlag :
    (Operands.one 7#8).slotA.toNat = (7 : RegIndex).val ∧ Fits (.one 7#8) (machineAt 254 []) ∧
      (machineAt 254 []).fl.getLsbD 0 = false ∧
      ({ machineAt 254 [] with fl := flagEqual } : State).fl.getLsbD 0 = true := by decide

theorem witness_RegisterIndexAboveSevenFaults :
    (Instr.jne (.one 8#8)).slotAOk = false ∧
    ((Instr.cmp (.two 7#8 8#8)).slotAOk = true ∧ (Instr.cmp (.two 7#8 8#8)).slotBOk = false) ∧
    ((Instr.cmp (.two 7#8 7#8)).wf = true ∧ ∃ t, exec (.cmp (.two 7#8 7#8)) (machineAt 0 []) = .next t) :=
  ⟨by decide, by decide, by decide, _, rfl⟩

theorem witness_FrameOfRegisterWriters :
    (∃ t, exec (.ldi (.two 7#8 1#8)) (machineAt 0 []) = .next t ∧ t.fault = none) ∧
    (∃ t, exec (.add (.two 7#8 1#8)) (machineAt 0 []) = .next t ∧ t.fault = none) ∧
    (∃ t, exec (.sub (.two 7#8 1#8)) (machineAt 0 []) = .next t ∧ t.fault = none) ∧
    (∃ t, exec (.mul (.two 7#8 1#8)) (machineAt 0 []) = .next t ∧ t.fault = none) ∧
    (∃ t, exec (.div (.two 0#8 7#8)) (machineAt 0 []) = .next t ∧ t.fault = none) :=
  ⟨⟨_, rfl, rfl⟩, ⟨_, rfl, rfl⟩, ⟨_, rfl, rfl⟩, ⟨_, rfl, rfl⟩, ⟨_, rfl, rfl⟩⟩

theorem witness_FrameOfInstructionsThatWriteNoRegister :
    (∃ t, exec (.prn (.one 7#8)) (machineAt 0 []) = .next t ∧ t.fault = none) ∧
    (∃ t, exec (.hlt .zero) (machineAt 0 []) = .next t ∧ t.fault = none) ∧
    (∃ t, exec (.cmp (.two 0#8 7#8)) (machineAt 0 []) = .next t ∧ t.fault = none) ∧
    (∃ t, exec (.jmp (.one 7#8)) (machineAt 0 []) = .next t ∧ t.fault = none) ∧
    (∃ t, exec (.jeq (.one 7#8)) (machineAt 0 []) = .next t ∧ t.fault = none) ∧
    (∃ t, exec (.jne (.one 7#8)) (machineAt 0 []) = .next t ∧ t.fault = none) :=
  ⟨⟨_, rfl, rfl⟩, ⟨_, rfl, rfl⟩, ⟨_, rfl, rfl⟩, ⟨_, rfl, rfl⟩, ⟨_, rfl, rfl⟩, ⟨_, rfl, rfl⟩⟩

/-- A PUSH and a CALL that store, and a CALL that faults. -/
theorem witness_FrameOfStackWriters :
    (∃ t, exec (.push (.one 7#8)) (machineAt 0 []) = .next t ∧ t.mem.read 0xF3 = 0xF3#8) ∧
    (∃ t, exec (.call (.one 7#8)) (machineAt 0 []) = .next t ∧ t.mem.read 0xF3 = 2#8) ∧
    (∃ t, exec (.call (.one 7#8)) (machineAt 254 []) = .next t ∧ t.fault ≠ none) :=
  ⟨⟨_, rfl, by decide⟩, ⟨_, rfl, by decide⟩, ⟨_, rfl, by decide⟩⟩

theorem witness_FrameOfStackReaders :
    (∃ t, exec (.pop (.one 0#8)) (machineAt 0 []) = .next t ∧ t.reg 7 = 0xF5#8) ∧
    (∃ t, exec (.ret .zero) (machineAt 0 []) = .next t ∧ t.reg 7 = 0xF5#8) :=
  ⟨⟨_, rfl, by decide⟩, ⟨_, rfl, by decide⟩⟩

/-- PUSH R7 then POP R7, and PUSH R0 then POP R1, the state in between being the one PUSH left. -/
theorem witness_PushThenPopRestoresTheRegister :
    ((Operands.one 7#8).slotA.toNat = (7 : RegIndex).val ∧ ∃ m, exec (.push (.one 7#8)) (machineAt 0 []) = .next m) ∧
    ((Operands.one 0#8).slotA.toNat = (0 : RegIndex).val ∧ (Operands.one 1#8).slotA.toNat = (1 : RegIndex).val ∧
      ∃ m, exec (.push (.one 0#8)) (machineAt 0 []) = .next m) :=
  ⟨⟨by decide, _, rfl⟩, ⟨by decide, by decide, _, rfl⟩⟩

theorem witness_CallThenRetReturnsAfterTheCall :
    (Operands.one 7#8).slotA.toNat = (7 : RegIndex).val ∧
      (machineAt 253 []).pc.toNat + (Operands.one 7#8).count + 1 ≤ 255 ∧
      ∃ m, exec (.call (.one 7#8)) (machineAt 253 []) = .next m :=
  ⟨by decide, by decide, _, rfl⟩

/-- A step that changes `fl`; a CMP; a branch on two flag values that agree in bit 0. -/
theorem witness_OnlyCmpWritesTheFlagsAndOnlyBranchesReadThem :
    look (machineAt 0 [0xA7#8, 0#8, 7#8]) (fun t => t.fl) = some 4#8 ∧ (machineAt 0 []).fl = 0#8 ∧
    ((Operands.two 0#8 7#8).slotA.toNat ≤ 7 ∧ (Operands.two 0#8 7#8).slotB.toNat ≤ 7) ∧
    (0x04#8).getLsbD 0 = (machineAt 0 []).fl.getLsbD 0 ∧
    (nextOf (exec (.jeq (.one 7#8)) (machineAt 0 []))).isSome = true := by decide

theorem witness_TheReturnLatchIsNeverRead :
    (∃ t, exec (.ret .zero) (machineAt 0 []) = .next t) ∧ ∃ t, exec (.jmp (.one 7#8)) (machineAt 0 []) = .next t :=
  ⟨⟨_, rfl⟩, ⟨_, rfl⟩⟩

/-- The byte stored at 0xF3 is fetched at 0xF3. -/
theorem witness_StoredByteIsFetched :
    (Operands.one 0#8).slotA.toNat = (0 : RegIndex).val ∧
      (machineAt 253 []).pc.toNat + (Operands.one 0#8).count + 1 ≤ 255 ∧
      (machineAt 0xF3 []).pc.toNat = ((machineAt 253 []).reg 7 - 1#8).toNat := by decide

/-- The two clauses of each of R33 and R34, where they meet. -/
theorem witness_MemReadIsBoundsChecked : (256 : Nat) > 255 ∧ (255 : Nat) ≤ 255 := by decide

theorem witness_MemWriteIsBoundsChecked : (256 : Nat) > 255 ∧ (255 : Nat) ≤ 255 := by decide

/-- Two ways to the same memory, one of them through a byte that is written back to 0x00. -/
theorem witness_MemoriesThatReadAlikeAreEqual :
    (Memory.wf ((Memory.write [(255, 2#8)] 0 1#8).write 0 0#8)) = true ∧ Memory.wf [(255, 2#8)] = true ∧
      ∀ a ∈ [0, 1, 254, 255], Memory.read ((Memory.write [(255, 2#8)] 0 1#8).write 0 0#8) a =
        Memory.read [(255, 2#8)] a := by decide

theorem witness_LoadImageReplacesMemory :
    State.reset.status = .ready ∧ (List.replicate 256 1#8).length ≤ 256 :=
  ⟨rfl, Nat.le_of_eq List.length_replicate⟩

theorem witness_LoadImageRejectsAndRefuses :
    (State.reset.status = .ready ∧ 256 < (List.replicate 257 1#8).length) ∧ (machineAt 0 []).status ≠ .ready :=
  ⟨⟨rfl, Nat.lt_of_lt_of_eq (by decide) List.length_replicate.symm⟩, by decide⟩

/-- Ready without a transaction, with a `load_image`, with a `run()`; and Halted. -/
theorem witness_StepServesTheHost :
    (State.reset.status = .ready ∧ hostCall State.reset = none) ∧
    hostCall { State.reset with hostCalls := [some (.loadImage [1#8])] } = some (.loadImage [1#8]) ∧
    hostCall { State.reset with hostCalls := [some .run] } = some .run ∧
    ({ State.reset with status := .halted, runsWaiting := 2 } : State).status = .halted := by decide

/-- A program that hangs, and a step that faults. -/
theorem witness_TransactionsWhileRunningDoNotDisturbTheStep :
    ((machineAt 0 [0x12#8]).status = .running ∧
      ∃ u, step { machineAt 0 [0x12#8] with hostCalls := none :: [some .run] } = .next u) ∧
    ((machineAt 256 []).status = .running ∧ ∃ u, step { machineAt 256 [] with hostCalls := none :: [] } = .next u) :=
  ⟨⟨by decide, _, rfl⟩, ⟨by decide, _, rfl⟩⟩

theorem witness_BootLoadsTheImageAndStartsAtZero : ([0x01#8] : List Byte).length ≤ 256 ∧ ([] : List Byte).length ≤ 256 := by
  decide

theorem witness_ReadMemIsBoundsChecked : (255 : Nat) ≤ 255 ∧ (256 : Nat) > 255 := by decide

/-- The invariant holds of a Running machine before a HLT, whatever the stop requests to come. -/
theorem before_hlt_inv (stops : List Bool) : ({ machineAt 0 [0x01#8] with stopReq := stops } : State).Inv where
  mem_wf := rfl
  pc_le := Nat.zero_le _
  fl_legal := rfl
  ready_fresh := fun h => by cases h
  reason_none := ⟨fun _ h => (by cases h), fun _ => rfl⟩
  fault_recorded := ⟨fun h => (by cases h), fun h => (by cases h)⟩
  fault_legal := fun f h => by cases h
  trace_one := rfl

/-- One step is a safe run when neither its first nor its last state has recorded a fatal condition. -/
theorem safeRun_one {s t : State} (h : step s = .next t) (hs : s.reason ≠ .fault) (ht : t.reason ≠ .fault) : SafeRun 1 s := by
  intro j u hj hu
  match j with
  | 0 => cases hu; exact hs
  | 1 =>
    simp only [Host.Core.run, show Sys2Proof.core.step s = .next t from h] at hu
    cases hu
    exact ht
  | j + 2 => omega

/-- One safe run that halts by HLT, and one that halts by a stop and leaves a trace record. -/
theorem witness_SafeRunEndsWithoutAFaultRecord :
    (∃ s t : State, s.Inv ∧ SafeRun 1 s ∧ Sys2Proof.core.run 1 s = .next t ∧ t.status = .halted ∧ t.reason = .hlt) ∧
    (∃ s t : State, s.Inv ∧ SafeRun 1 s ∧ Sys2Proof.core.run 1 s = .next t ∧ t.status = .halted ∧ t.trace ≠ []) :=
  ⟨⟨_, _, before_hlt_inv [], safeRun_one rfl (by decide) (by decide), rfl, rfl, rfl⟩,
    ⟨_, _, before_hlt_inv [true], safeRun_one rfl (by decide) (by decide), rfl, rfl, by decide⟩⟩

/-- The whole slide from 0, and its last step alone. -/
theorem witness_ZeroedMemorySlidesToAFault :
    ((machineAt 0 []).status = .running ∧ (machineAt 0 []).stopReq = [] ∧ (machineAt 0 []).pc.toNat + 256 = 256) ∧
    ((machineAt 256 []).status = .running ∧ (machineAt 256 []).stopReq = [] ∧ (machineAt 256 []).pc.toNat + 0 = 256) ∧
    ∀ a, (machineAt 0 []).mem.read a = 0x00#8 :=
  ⟨by decide, by decide, fun _ => rfl⟩

end Sys2Proof.Tests
end

section
/-! SUPPORT. A change of the state carried through an outcome. An instruction that reads no part of the change gives the
changed outcome from the changed state; the shared operations of Machine/Ops.lean do so when what they continue with does. -/

namespace Sys2Proof.Machine

/-- The outcome with its next state, where there is one, changed by `f`. -/
def mapNext (f : State → State) : Result → Result
  | .next t => .next (f t)
  | .fault r => .fault r
  | .refused r => .refused r

@[simp] theorem mapNext_next (f : State → State) (t : State) : mapNext f (.next t) = .next (f t) := rfl

variable {f : State → State} {s : State}

theorem mapNext_raiseFault {cause : FaultCause} {info : Nat}
    (hf : f (enterFault cause info s) = enterFault cause info (f s)) :
    mapNext f (raiseFault cause info s) = raiseFault cause info (f s) :=
  congrArg Host.Outcome.next hf

/-- CheckReg reads no state: it only copies the state into the fault it may raise. -/
theorem mapNext_checkReg (hf : ∀ cause info, f (enterFault cause info s) = enterFault cause info (f s)) (r : Byte)
    (k : RegIndex → Result) : mapNext f (checkReg s r k) = checkReg (f s) r fun a => mapNext f (k a) := by
  unfold checkReg
  split
  · rfl
  · exact mapNext_raiseFault (hf _ _)

theorem mapNext_checkTwoRegs (hf : ∀ cause info, f (enterFault cause info s) = enterFault cause info (f s))
    (ops : Operands) (k : RegIndex → RegIndex → Result) :
    mapNext f (checkTwoRegs s ops k) = checkTwoRegs (f s) ops fun a b => mapNext f (k a b) := by
  simp only [checkTwoRegs, mapNext_checkReg hf]

end Sys2Proof.Machine
end

section
/-! PROOFS. The flags register (R12): which instruction writes it and which reads it. That an instruction does not read `fl`
is shown by one change of `fl` carried through it; that it does not write `fl` follows from that. -/

namespace Sys2Proof.Machine

/-- The state with another value in the flags register. -/
def State.setFl (fl : Byte) (s : State) : State :=
  { s with fl := fl }

@[simp] theorem State.setFl_fl (fl : Byte) (s : State) : (s.setFl fl).fl = fl := rfl

theorem State.setFl_self (s : State) : s.setFl s.fl = s := rfl

theorem setFl_enterFault (fl : Byte) (s : State) (cause : FaultCause) (info : Nat) :
    (enterFault cause info s).setFl fl = enterFault cause info (s.setFl fl) := rfl

/-- R12: an instruction other than CMP takes a change of `fl` through unread; a branch does where bit 0 stays the same. -/
theorem mapNext_exec_setFl (i : Instr) (s : State) (fl : Byte) (hcmp : ∀ ops, i ≠ .cmp ops)
    (hbranch : (∃ ops, i = .jeq ops ∨ i = .jne ops) → equalFlag fl = equalFlag s.fl) :
    mapNext (State.setFl fl) (exec i s) = exec i (s.setFl fl) := by
  have oneReg := mapNext_checkReg (setFl_enterFault fl s)
  have twoRegs := mapNext_checkTwoRegs (setFl_enterFault fl s)
  cases i with
  | ldi ops =>
    simp only [exec, execLdi, oneReg]
    rfl
  | prn ops =>
    simp only [exec, execPrn, oneReg]
    rfl
  | hlt ops => rfl
  | push ops =>
    simp only [exec, execPush, oneReg, pushByte_next]
    rfl
  | pop ops =>
    simp only [exec, execPop, oneReg, memRead_byte]
    rfl
  | call ops =>
    simp only [exec, execCall, oneReg, pushByte_next, apply_ite (mapNext _)]
    rfl
  | ret ops =>
    simp only [exec, execRet_next]
    rfl
  | jmp ops =>
    simp only [exec, execJmp, oneReg]
    rfl
  | jeq ops =>
    simp only [exec, execJeq, oneReg, apply_ite (mapNext _), State.setFl_fl, hbranch ⟨ops, .inl rfl⟩]
    rfl
  | jne ops =>
    simp only [exec, execJne, oneReg, apply_ite (mapNext _), State.setFl_fl, hbranch ⟨ops, .inr rfl⟩]
    rfl
  | add ops =>
    simp only [exec, execAdd, twoRegs]
    rfl
  | sub ops =>
    simp only [exec, execSub, twoRegs]
    rfl
  | mul ops =>
    simp only [exec, execMul, twoRegs]
    rfl
  | div ops =>
    simp only [exec, execDiv, twoRegs, apply_ite (mapNext _)]
    rfl
  | cmp ops => exact absurd rfl (hcmp ops)

/-- R12: an instruction other than CMP keeps `fl`: writing back the value it had changes nothing before it, so nothing
after it. -/
theorem exec_fl_of_not_cmp {i : Instr} {s t : State} (hcmp : ∀ ops, i ≠ .cmp ops) (h : exec i s = .next t) :
    t.fl = s.fl := by
  have hback := mapNext_exec_setFl i s s.fl hcmp fun _ => rfl
  rw [State.setFl_self, h, mapNext_next] at hback
  injection hback with ht
  exact (congrArg State.fl ht).symm

/-- CMP halts only where it faults, and there it keeps `fl`. -/
theorem exec_cmp_fl_or_status {ops : Operands} {s t : State} (h : exec (.cmp ops) s = .next t) :
    t.fl = s.fl ∨ t.status = s.status := by
  obtain ⟨a, b, -, -, hrun⟩ | ⟨n, -, -, -, hfault⟩ := aluResult_cases ops s fun a b =>
    .next (advance ops s { s with fl := compareFlags (s.reg a) (s.reg b) })
  · cases h.symm.trans hrun
    exact .inr rfl
  · cases h.symm.trans hfault
    exact .inl rfl

/-- R12, R80: CMP overwrites `fl` without reading it. -/
theorem exec_cmp_setFl {ops : Operands} (ha : ops.slotA.toNat ≤ 7) (hb : ops.slotB.toNat ≤ 7) (s : State) (fl : Byte) :
    exec (.cmp ops) (s.setFl fl) = exec (.cmp ops) s := by
  let a : RegIndex := ⟨ops.slotA.toNat, by omega⟩
  let b : RegIndex := ⟨ops.slotB.toNat, by omega⟩
  simp only [exec, execCmp, checkTwoRegs_of_le a b rfl rfl]
  rfl

/-- Where the decoder's outcome changes `fl`, it is a CMP, and the CORE goes on running. -/
theorem runDecoded_fl_ne {d : Decoded} {s t : State} (h : runDecoded d s = .next t) (hfl : t.fl ≠ s.fl) :
    t.status = s.status ∧ ∃ ops rest, d = .instr (.cmp ops) rest := by
  cases d with
  | instr i rest =>
    by_cases hcmp : ∃ ops, i = .cmp ops
    · obtain ⟨ops, rfl⟩ := hcmp
      exact ⟨(exec_cmp_fl_or_status h).resolve_left hfl, ops, rest, rfl⟩
    · exact absurd (exec_fl_of_not_cmp (fun ops hi => hcmp ⟨ops, hi⟩) h) hfl
  | noop op ops rest =>
    obtain hnext | hnext := runNoop_next op ops s
    · cases h.symm.trans hnext
      exact absurd rfl hfl
    · cases h.symm.trans hnext
      exact absurd rfl hfl
  | illegalOperandCount | missingByte | unsupportedOperation =>
    cases h
    exact absurd rfl hfl

/-- A host transaction in Ready keeps `fl`. -/
theorem readyTurn_fl {s : State} (hs : s.status = .ready) : (readyTurn s).fl = s.fl := by
  obtain ⟨-, h⟩ | ⟨_, -, -, h⟩ | ⟨_, -, -, h⟩ | ⟨-, h⟩ := readyTurn_cases hs <;> rw [h] <;> rfl

/-- R12: a step that changes `fl` executes a CMP. -/
theorem step_fl_ne {s t : State} (h : step s = .next t) (hfl : t.fl ≠ s.fl) :
    Executes s ∧ t.status = .running ∧ ∃ ops rest, decode (fetchBytes s) = .instr (.cmp ops) rest := by
  cases hs : s.status with
  | ready =>
    cases h.symm.trans (step_of_ready hs)
    exact absurd (readyTurn_fl hs) hfl
  | halted =>
    cases h.symm.trans (step_of_halted hs)
    exact absurd rfl hfl
  | running =>
    cases hstop : stopAsserted s with
    | true =>
      cases h.symm.trans (step_of_stop hs hstop)
      exact absurd rfl hfl
    | false =>
      obtain ⟨hstatus, hdecode⟩ := runDecoded_fl_ne ((step_of_running hs hstop).symm.trans h) hfl
      exact ⟨⟨hs, hstop⟩, hstatus.trans hs, hdecode⟩

/-- Settles O46: a change of `fl` passes through every instruction but CMP, which overwrites it; the step's own parts
keep it. -/
theorem onlyCmpWritesTheFlagsAndOnlyBranchesReadThem :
    Obligations.OnlyCmpWritesTheFlagsAndOnlyBranchesReadThem := by
  refine ⟨fun s t => step_fl_ne, fun ops s fl ha hb => exec_cmp_setFl ha hb s fl, ?_⟩
  intro i s t fl h hcmp hbranch
  exact (mapNext_exec_setFl i s fl hcmp hbranch).symm.trans (congrArg (mapNext (State.setFl fl)) h)

/-- Settles O21, by the register file of `State.reset` (R29). -/
theorem stackPointerResetsToF4 : Obligations.StackPointerResetsToF4 := rfl

end Sys2Proof.Machine
end

section
/-! PROOFS. MemRead and MemWrite (R33, R34): an equation for each side of the bounds check, and the two statements. -/

namespace Sys2Proof.Machine

variable {s0 s : State} {addr : Nat}

theorem memRead_of_gt {k : Byte → Result} (h : addr > 255) :
    memRead s0 s addr k = .next (enterFault .addressOutOfBounds addr s0) :=
  if_pos h

theorem memRead_of_le {k : Byte → Result} (h : addr ≤ 255) : memRead s0 s addr k = k (s.mem.read addr) :=
  if_neg (Nat.not_lt_of_le h)

theorem memWrite_of_gt {v : Byte} {k : State → Result} (h : addr > 255) :
    memWrite s0 s addr v k = .next (enterFault .addressOutOfBounds addr s0) :=
  if_pos h

theorem memWrite_of_le {v : Byte} {k : State → Result} (h : addr ≤ 255) :
    memWrite s0 s addr v k = k { s with mem := s.mem.write addr v } :=
  if_neg (Nat.not_lt_of_le h)

/-- Settles O49, by the two sides of MemRead's bounds check. -/
theorem memReadIsBoundsChecked : Obligations.MemReadIsBoundsChecked :=
  fun _ _ _ _ => ⟨memRead_of_gt, memRead_of_le⟩

/-- Settles O50: below 256 the state MemWrite goes on in is `Memory.write`'s, which `Memory.read_write` describes cell by
cell. -/
theorem memWriteIsBoundsChecked : Obligations.MemWriteIsBoundsChecked := by
  intro s0 s addr v k
  refine ⟨memWrite_of_gt, fun h => ⟨{ s with mem := s.mem.write addr v }, memWrite_of_le h, ?_, fun a ha => ?_, rfl⟩⟩
  · exact (Memory.read_write s.mem addr v addr).trans (if_pos rfl)
  · exact (Memory.read_write s.mem addr v a).trans (if_neg ha)

end Sys2Proof.Machine
end

section
/-! SUPPORT. The decoder's rules: what each operand count makes of a list of bytes (R49, R50), the two dispatch tables as
equivalences (R53, R55), and that dispatch sees bits 5:0 of the word alone (R52). -/

namespace Sys2Proof

variable {w a b : Byte} {bytes rest : List Byte}

theorem decode_of_count_zero (h : operandCountField w = 0#2) : decode (w :: rest) = selectInstr w .zero rest := by
  simp [decode, h]

theorem decode_of_count_one (h : operandCountField w = 1#2) :
    decode (w :: a :: rest) = selectInstr w (.one a) rest := by
  simp [decode, h]

theorem decode_of_count_two (h : operandCountField w = 2#2) :
    decode (w :: a :: b :: rest) = selectInstr w (.two a b) rest := by
  simp [decode, h]

theorem decode_of_count_three (h : operandCountField w = 3#2) : decode (w :: bytes) = .illegalOperandCount w := by
  simp [decode, h]

/-- R50: the first operand byte is missing, whether one or two are expected. -/
theorem decode_word_alone (h : operandCountField w = 1#2 ∨ operandCountField w = 2#2) : decode [w] = .missingByte 1 := by
  obtain h | h := h <;> simp [decode, h]

theorem decode_one_byte_of_two (h : operandCountField w = 2#2) : decode [w, a] = .missingByte 2 := by
  simp [decode, h]

/-- R53: the ALU sub-opcodes. -/
theorem aluInstr_eq_some_iff {op : BitVec 5} {ops : Operands} {i : Instr} :
    aluInstr op ops = some i ↔
      (op = 0#5 ∧ i = .add ops) ∨ (op = 1#5 ∧ i = .sub ops) ∨ (op = 2#5 ∧ i = .mul ops) ∨
      (op = 3#5 ∧ i = .div ops) ∨ (op = 7#5 ∧ i = .cmp ops) := by
  simp only [aluInstr, BitVec.toNat_eq, BitVec.reduceToNat]
  generalize op.toNat = n
  split <;> simp_all [eq_comm]

/-- R53: the handler table. -/
theorem handlerInstr_eq_some_iff {op : BitVec 5} {ops : Operands} {i : Instr} :
    handlerInstr op ops = some i ↔
      (op = 1#5 ∧ i = .hlt ops) ∨ (op = 2#5 ∧ i = .ldi ops) ∨ (op = 5#5 ∧ i = .push ops) ∨
      (op = 6#5 ∧ i = .pop ops) ∨ (op = 7#5 ∧ i = .prn ops) ∨ (op = 16#5 ∧ i = .call ops) ∨
      (op = 17#5 ∧ i = .ret ops) ∨ (op = 20#5 ∧ i = .jmp ops) ∨ (op = 21#5 ∧ i = .jeq ops) ∨
      (op = 22#5 ∧ i = .jne ops) := by
  simp only [handlerInstr, BitVec.toNat_eq, BitVec.reduceToNat]
  generalize op.toNat = n
  split <;> simp_all [eq_comm]

/-- R55: the sub-opcodes that name no ALU operation. -/
theorem aluInstr_eq_none_iff {op : BitVec 5} {ops : Operands} : aluInstr op ops = none ↔ op.toNat ∉ [0, 1, 2, 3, 7] := by
  unfold aluInstr
  split <;> simp_all

theorem selectInstr_alu_eq_instr_iff {ops : Operands} {i : Instr} (hA : aluFlag w = true) :
    selectInstr w ops rest = .instr i rest ↔ aluInstr (opcodeField w) ops = some i := by
  cases h : aluInstr (opcodeField w) ops <;> simp [selectInstr, hA, h]

theorem selectInstr_handler_eq_instr_iff {ops : Operands} {i : Instr} (hA : aluFlag w = false) :
    selectInstr w ops rest = .instr i rest ↔ handlerInstr (opcodeField w) ops = some i := by
  cases h : handlerInstr (opcodeField w) ops <;> simp [selectInstr, hA, h]

theorem selectInstr_of_unassigned_alu {ops : Operands} (hA : aluFlag w = true)
    (hop : (opcodeField w).toNat ∉ [0, 1, 2, 3, 7]) :
    selectInstr w ops rest = .unsupportedOperation (opcodeField w) := by
  simp [selectInstr, hA, aluInstr_eq_none_iff.mpr hop]

theorem aluFlag_and_low6 (w : Byte) : aluFlag (w &&& 0x3F#8) = aluFlag w := by
  simp [aluFlag]

theorem opcodeField_and_low6 (w : Byte) : opcodeField (w &&& 0x3F#8) = opcodeField w := by
  rw [opcodeField, BitVec.extractLsb'_and]
  exact BitVec.and_allOnes

/-- R52: bits 7:6 take no part in the dispatch. -/
theorem selectInstr_and_low6 (w : Byte) (ops : Operands) (rest : List Byte) :
    selectInstr (w &&& 0x3F#8) ops rest = selectInstr w ops rest := by
  simp only [selectInstr, aluFlag_and_low6, opcodeField_and_low6]

/-- R52: words that agree in bits 5:0 dispatch alike. -/
theorem selectInstr_congr_low6 {w w' : Byte} (h : w &&& 0x3F#8 = w' &&& 0x3F#8) (ops : Operands) (rest : List Byte) :
    selectInstr w ops rest = selectInstr w' ops rest := by
  rw [← selectInstr_and_low6 w, h, selectInstr_and_low6]

/-- R52: putting a count into bits 7:6 of a word changes nothing of its dispatch. -/
theorem selectInstr_or_count {n : Byte} (hn : n &&& 0x3F#8 = 0#8) (w : Byte) (ops : Operands) (rest : List Byte) :
    selectInstr (w ||| n) ops rest = selectInstr w ops rest := by
  refine selectInstr_congr_low6 ?_ ops rest
  rw [BitVec.and_or_distrib_right, hn, BitVec.or_zero]

/-- A word with N = 0 takes the count that is put into its bits 7:6. -/
theorem operandCountField_or_count (hw : operandCountField w = 0#2) (n : Byte) :
    operandCountField (w ||| n) = operandCountField n := by
  simp only [operandCountField, BitVec.extractLsb'_or] at hw ⊢
  rw [hw, BitVec.zero_or]

end Sys2Proof
end

section
/-! SUPPORT. The fetch at each place `pc` can have, and what the decoder makes of the bytes fetched there (R50, R65). -/

namespace Sys2Proof.Machine

variable {s : State}

theorem fetchBytes_of_le_255 (h : s.pc.toNat ≤ 255) : ∃ bytes, fetchBytes s = s.mem.read s.pc.toNat :: bytes := by
  rw [fetchBytes_eq, if_pos (by omega)]
  exact ⟨_, rfl⟩

theorem fetchBytes_of_le_254 (h : s.pc.toNat ≤ 254) :
    ∃ bytes, fetchBytes s = s.mem.read s.pc.toNat :: s.mem.read (s.pc.toNat + 1) :: bytes := by
  rw [fetchBytes_eq, if_pos (by omega), if_pos (by omega)]
  exact ⟨_, rfl⟩

theorem fetchBytes_of_le_253 (h : s.pc.toNat ≤ 253) :
    fetchBytes s = [s.mem.read s.pc.toNat, s.mem.read (s.pc.toNat + 1), s.mem.read (s.pc.toNat + 2)] := by
  rw [fetchBytes_eq, if_pos (by omega), if_pos (by omega), if_pos (by omega)]

theorem fetchBytes_at_255 (h : s.pc = 255#9) : fetchBytes s = [s.mem.read 255] := by
  simp [fetchBytes_eq, h]

theorem fetchBytes_at_254 (h : s.pc = 254#9) : fetchBytes s = [s.mem.read 254, s.mem.read 255] := by
  simp [fetchBytes_eq, h]

/-- R50, R63: a word whose N operand bytes lie inside memory reaches dispatch, with N operand bytes. -/
theorem decode_fetchBytes_of_fits (hfit : s.pc.toNat + (operandCountField (s.mem.read s.pc.toNat)).toNat ≤ 255)
    (hN : (operandCountField (s.mem.read s.pc.toNat)).toNat ≤ 2) :
    ∃ ops rest, ops.count = (operandCountField (s.mem.read s.pc.toNat)).toNat ∧
      decode (fetchBytes s) = selectInstr (s.mem.read s.pc.toNat) ops rest := by
  have hcases : operandCountField (s.mem.read s.pc.toNat) = 0#2 ∨ operandCountField (s.mem.read s.pc.toNat) = 1#2 ∨
      operandCountField (s.mem.read s.pc.toNat) = 2#2 := by
    bv_omega
  obtain h | h | h := hcases <;> simp only [h, BitVec.toNat_ofNat] at hfit ⊢
  · obtain ⟨bytes, hfetch⟩ := fetchBytes_of_le_255 (s := s) (by omega)
    exact ⟨.zero, bytes, rfl, by rw [hfetch, decode_of_count_zero h]⟩
  · obtain ⟨bytes, hfetch⟩ := fetchBytes_of_le_254 (s := s) (by omega)
    exact ⟨.one _, bytes, rfl, by rw [hfetch, decode_of_count_one h]⟩
  · have hfetch := fetchBytes_of_le_253 (s := s) (by omega)
    exact ⟨.two _ _, [], rfl, by rw [hfetch, decode_of_count_two h]⟩

/-- A step that executes does what its bytes decode to. -/
theorem step_of_decode {d : Decoded} (hs : Executes s) (h : decode (fetchBytes s) = d) :
    step s = runDecoded d (boundary s) := by
  obtain ⟨hrunning, hstop⟩ := hs
  rw [step_of_running hrunning hstop, h]

/-- R65: a missing byte is an AddressOutOfBounds at the first address past memory. -/
theorem step_of_missingByte {k : Nat} (hs : Executes s) (h : decode (fetchBytes s) = .missingByte k)
    (haddr : s.pc.toNat + k = 256) : step s = .next (faultState .addressOutOfBounds 256 (boundary s)) := by
  rw [step_of_decode hs h, ← haddr]
  rfl

end Sys2Proof.Machine
end

section
/-! PROOFS. The encoding statements: the key of the dispatch (R52), the assigned opcodes (R53), and the ALU-class words
that name no operation (R55). -/

namespace Sys2Proof.Machine

/-- Settles O6: the decoder's equation for each operand count, the dispatch through bits 5:0, and the two tables. -/
theorem dispatchIsKeyedOnAluFlagAndOpcode : Obligations.DispatchIsKeyedOnAluFlagAndOpcode := by
  refine ⟨fun w a b rest => ⟨decode_of_count_zero, decode_of_count_one, decode_of_count_two⟩,
    fun w w' ops rest h => selectInstr_congr_low6 h ops rest, fun w ops rest i hA => ?_, fun w ops rest i hA => ?_⟩
  · exact (selectInstr_alu_eq_instr_iff hA).trans aluInstr_eq_some_iff
  · exact (selectInstr_handler_eq_instr_iff hA).trans handlerInstr_eq_some_iff

/-- R49, R50: the fatal conditions of decoding are those of the count alone, the same for every word. -/
theorem faultsWhileDecoding_of_count_zero {key : Byte} (hkey : operandCountField key = 0#2) :
    FaultsWhileDecoding key := by
  intro s hs
  have count := operandCountField_or_count hkey
  refine ⟨fun hpc hw => ?_, fun hpc hw => ?_, fun hpc hw => ?_⟩
  · obtain ⟨bytes, hfetch⟩ := fetchBytes_of_le_255 hpc
    refine step_of_decode hs (d := .illegalOperandCount (key ||| 0xC0#8)) ?_
    rw [hfetch, hw, decode_of_count_three (count 0xC0#8)]
  · refine step_of_missingByte hs (k := 1) ?_ (by rw [hpc]; rfl)
    rw [fetchBytes_at_255 hpc]
    refine decode_word_alone ?_
    obtain hw | hw := hw <;> rw [hw]
    · exact .inl (count 0x40#8)
    · exact .inr (count 0x80#8)
  · refine step_of_missingByte hs (k := 2) ?_ (by rw [hpc]; rfl)
    rw [fetchBytes_at_254 hpc]
    refine decode_one_byte_of_two ?_
    rw [hw]
    exact count 0x80#8

/-- Settles O10: an ALU-class word that fits reaches dispatch, whatever its operand bytes are, and the ALU table has no
entry for it; the count's own fatal conditions do not depend on the opcode. -/
theorem unassignedAluOperationFaults : Obligations.UnassignedAluOperationFaults := by
  refine ⟨fun op ops => ?_, ?_, fun key hkey _ _ => faultsWhileDecoding_of_count_zero hkey⟩
  · rw [aluInstr_eq_none_iff]
    simp only [List.mem_cons, List.not_mem_nil, or_false]
    omega
  · intro s hs w hfit hN hA hop
    obtain ⟨ops, rest, -, hdecode⟩ := decode_fetchBytes_of_fits hfit hN
    exact step_of_decode hs (hdecode.trans (selectInstr_of_unassigned_alu hA hop))

/-- R52, R53: what a word with N = 0 dispatches to, the word decodes to with every legal operand count. -/
theorem decodesAs_of_selectInstr {key : Byte} {mk : Operands → Instr} (hkey : operandCountField key = 0#2)
    (hsel : ∀ ops rest, selectInstr key ops rest = .instr (mk ops) rest) : DecodesAs key mk := by
  intro a b rest
  have count := operandCountField_or_count hkey
  refine ⟨?_, ?_, ?_⟩
  · rw [decode_of_count_zero hkey, hsel]
  · rw [decode_of_count_one (count 0x40#8), selectInstr_or_count rfl, hsel]
  · rw [decode_of_count_two (count 0x80#8), selectInstr_or_count rfl, hsel]

/-- Settles O3: each row is its table entry, lifted to every operand count. -/
theorem assignedOpcodesDecode : Obligations.AssignedOpcodesDecode := by
  refine ⟨⟨?_, rfl⟩, ⟨?_, rfl⟩, ⟨?_, rfl⟩, ⟨?_, rfl⟩, ⟨?_, rfl⟩, ⟨?_, rfl⟩, ⟨?_, rfl⟩, ⟨?_, rfl⟩, ⟨?_, rfl⟩, ⟨?_, rfl⟩,
    ⟨?_, rfl⟩, ⟨?_, rfl⟩, ⟨?_, rfl⟩, ⟨?_, rfl⟩, ⟨?_, rfl⟩⟩ <;>
    exact decodesAs_of_selectInstr rfl fun _ _ => rfl

end Sys2Proof.Machine
end

section
/-! PROOFS. ADD, SUB and MUL (R76 to R78): each checks its two registers and then writes a number, mod 256, into
register a. Each statement is the same four parts, put together for the number of that instruction. -/

namespace Sys2Proof.Machine

variable {mk : Operands → Instr} {ops : Operands} {s : State}

/-- R72, R75: operand a is checked first, whatever operand b is. -/
theorem checkTwoRegs_of_gt_a {k : RegIndex → RegIndex → Result} (ha : 7 < ops.slotA.toNat) :
    checkTwoRegs s ops k = .next (enterFault .registerIndexOutOfRange ops.slotA.toNat s) :=
  checkReg_of_gt ha

/-- R72, R75: operand b is checked once operand a has passed. -/
theorem checkTwoRegs_of_gt_b {k : RegIndex → RegIndex → Result} (ha : ops.slotA.toNat ≤ 7) (hb : 7 < ops.slotB.toNat) :
    checkTwoRegs s ops k = .next (enterFault .registerIndexOutOfRange ops.slotB.toNat s) :=
  (checkReg_of_le ⟨ops.slotA.toNat, Nat.lt_succ_of_le ha⟩ rfl).trans (checkReg_of_gt hb)

/-- The instruction begins with the check of its two register operands and does nothing before it. -/
def BeginsWithTwoRegs (mk : Operands → Instr) : Prop :=
  ∀ (ops : Operands) (s : State), ∃ k, exec (mk ops) s = checkTwoRegs s ops k

theorem BeginsWithTwoRegs.checksA (h : BeginsWithTwoRegs mk) : ChecksA mk := by
  intro ops s ha
  obtain ⟨k, hexec⟩ := h ops s
  exact hexec.trans (checkTwoRegs_of_gt_a ha)

theorem BeginsWithTwoRegs.checksB (h : BeginsWithTwoRegs mk) : ChecksB mk := by
  intro ops s ha hb
  obtain ⟨k, hexec⟩ := h ops s
  exact hexec.trans (checkTwoRegs_of_gt_b ha hb)

theorem beginsWithTwoRegs_add : BeginsWithTwoRegs .add := fun _ _ => ⟨_, by rw [exec, execAdd]⟩
theorem beginsWithTwoRegs_sub : BeginsWithTwoRegs .sub := fun _ _ => ⟨_, by rw [exec, execSub]⟩
theorem beginsWithTwoRegs_mul : BeginsWithTwoRegs .mul := fun _ _ => ⟨_, by rw [exec, execMul]⟩

/-- R74: what the write of an ALU result leaves: the result mod 256 in register a, the other registers as they were,
`pc` past the instruction, and no other field changed. -/
theorem writeAluResult_next (a : RegIndex) (result : Nat) (hfit : Fits ops s) :
    ∃ t, writeAluResult s ops a result = .next t ∧ (t.reg a).toNat = result % 256 ∧
      (∀ r, r ≠ a → t.reg r = s.reg r) ∧ t.pc.toNat = s.pc.toNat + ops.count + 1 ∧
      t = { s with regs := t.regs, pc := t.pc } := by
  refine ⟨_, rfl, ?_, fun r hr => ?_, advance_pc_toNat _ s ops hfit, rfl⟩
  · rw [advance_reg, State.reg_setReg, if_pos rfl, BitVec.toNat_ofNat]
  · rw [advance_reg, State.reg_setReg, if_neg hr]

/-- R74, R77: 256 added before the subtraction is lost mod 256. -/
theorem toNat_add_256_sub_mod (x y : Byte) :
    (((x.toNat + 256 - y.toNat) % 256 : Nat) : Int) = ((x.toNat : Int) - y.toNat) % 256 := by
  have hy := y.isLt
  omega

/-- Settles O23: the register checks and the write of the sum are the shared operations of the ALU (R72, R74). -/
theorem addStoresTheSumMod256 : Obligations.AddStoresTheSumMod256 := by
  refine ⟨decodesAs_of_selectInstr rfl fun _ _ => rfl, faultsWhileDecoding_of_count_zero rfl,
    beginsWithTwoRegs_add.checksA, beginsWithTwoRegs_add.checksB, fun ops s a b ha hb hfit => ?_⟩
  rw [exec, execAdd, checkTwoRegs_of_le a b ha hb]
  exact writeAluResult_next a _ hfit

/-- Settles O24: as ADD, and the 256 the model adds to keep the difference a natural number is lost mod 256. -/
theorem subStoresTheDifferenceMod256 : Obligations.SubStoresTheDifferenceMod256 := by
  refine ⟨decodesAs_of_selectInstr rfl fun _ _ => rfl, faultsWhileDecoding_of_count_zero rfl,
    beginsWithTwoRegs_sub.checksA, beginsWithTwoRegs_sub.checksB, fun ops s a b ha hb hfit => ?_⟩
  rw [exec, execSub, checkTwoRegs_of_le a b ha hb]
  obtain ⟨t, hrun, hvalue, hframe⟩ := writeAluResult_next a ((s.reg a).toNat + 256 - (s.reg b).toNat) hfit
  exact ⟨t, hrun, hvalue ▸ toNat_add_256_sub_mod (s.reg a) (s.reg b), hframe⟩

/-- Settles O25: as ADD, with the product. -/
theorem mulStoresTheProductMod256 : Obligations.MulStoresTheProductMod256 := by
  refine ⟨decodesAs_of_selectInstr rfl fun _ _ => rfl, faultsWhileDecoding_of_count_zero rfl,
    beginsWithTwoRegs_mul.checksA, beginsWithTwoRegs_mul.checksB, fun ops s a b ha hb hfit => ?_⟩
  rw [exec, execMul, checkTwoRegs_of_le a b ha hb]
  exact writeAluResult_next a _ hfit

end Sys2Proof.Machine
end

section
/-! PROOFS. LDI (R82): it checks register a and writes the byte of slot b, as it stands, into it. -/

namespace Sys2Proof.Machine

variable {ops : Operands} {s : State}

/-- R72: LDI's one register operand is slot a. -/
theorem checksA_ldi : ChecksA .ldi := by
  intro ops s ha
  rw [exec, execLdi]
  exact checkReg_of_gt ha

/-- R9, R69: what a register write followed by the loop's advance leaves: `v` in register a, the other registers as they
were, `pc` past the instruction, and no other field changed. -/
theorem advance_setReg_frame (a : RegIndex) (v : Byte) (hfit : Fits ops s) :
    (advance ops s (s.setReg a v)).reg a = v ∧
      (∀ r, r ≠ a → (advance ops s (s.setReg a v)).reg r = s.reg r) ∧
      (advance ops s (s.setReg a v)).pc.toNat = s.pc.toNat + ops.count + 1 ∧
      advance ops s (s.setReg a v) =
        { s with regs := (advance ops s (s.setReg a v)).regs, pc := (advance ops s (s.setReg a v)).pc } := by
  refine ⟨?_, fun r hr => ?_, advance_pc_toNat _ s ops hfit, rfl⟩
  · rw [advance_reg, State.reg_setReg, if_pos rfl]
  · rw [advance_reg, State.reg_setReg, if_neg hr]

/-- R82: where register a passes its check, LDI writes slot b into it and the loop advances. -/
theorem exec_ldi_of_le (a : RegIndex) (ha : ops.slotA.toNat = a.val) :
    exec (.ldi ops) s = .next (advance ops s (s.setReg a ops.slotB)) := by
  rw [exec, execLdi, checkReg_of_le a ha]

/-- Settles O29: the immediate LDI writes is slot b, which is 0 where N does not cover it (R50). -/
theorem ldiStoresTheImmediate : Obligations.LdiStoresTheImmediate := by
  refine ⟨decodesAs_of_selectInstr rfl fun _ _ => rfl, faultsWhileDecoding_of_count_zero rfl, checksA_ldi,
    fun ops s a ha hfit => ?_⟩
  obtain ⟨hvalue, hframe⟩ := advance_setReg_frame a ops.slotB hfit
  refine ⟨_, exec_ldi_of_le a ha, hvalue.trans ?_, hframe⟩
  cases ops <;> rfl

end Sys2Proof.Machine
end

section
/-! PROOFS. JMP (R90): it checks register a and jumps to the byte it holds; the loop does not advance `pc`. -/

namespace Sys2Proof.Machine

variable {ops : Operands} {s : State}

/-- R72: JMP's one register operand is slot a. -/
theorem checksA_jmp : ChecksA .jmp := by
  intro ops s ha
  rw [exec, execJmp]
  exact checkReg_of_gt ha

/-- R90: where register a passes its check, JMP goes to the byte register a holds. -/
theorem exec_jmp_of_le (a : RegIndex) (ha : ops.slotA.toNat = a.val) :
    exec (.jmp ops) s = .next (jumpTo (s.reg a) s) := by
  rw [exec, execJmp, checkReg_of_le a ha]

/-- Settles O37: `jumpTo` sets `pc` to the register's value, zero-extended, and keeps every other field. -/
theorem jmpJumpsToTheRegister : Obligations.JmpJumpsToTheRegister := by
  refine ⟨decodesAs_of_selectInstr rfl fun _ _ => rfl, faultsWhileDecoding_of_count_zero rfl, checksA_jmp,
    fun ops s a ha => ?_⟩
  exact ⟨jumpTo (s.reg a) s, exec_jmp_of_le a ha, jumpTo_pc_toNat _ _, rfl⟩

end Sys2Proof.Machine
end

section
/-! PROOFS. DIV by zero (R96): the two register checks come first (R72), then the divisor's value, before any write. -/

namespace Sys2Proof.Machine

variable {ops : Operands} {s : State}

theorem beginsWithTwoRegs_div : BeginsWithTwoRegs .div := fun _ _ => ⟨_, by rw [exec, execDiv]⟩

/-- R96: where both operands name registers and the divisor's holds 0, DIV ends in fault entry with the divisor's index. -/
theorem exec_div_of_zero (a b : RegIndex) (ha : ops.slotA.toNat = a.val) (hb : ops.slotB.toNat = b.val)
    (hzero : s.reg b = 0x00#8) : exec (.div ops) s = .next (enterFault .divideByZero b.val s) := by
  have hdivisor : (s.reg b).toNat = 0 := by rw [hzero]; rfl
  rw [exec, execDiv, checkTwoRegs_of_le a b ha hb, if_pos hdivisor, raiseFault]

/-- Settles O27: DIV checks its two registers as the other ALU instructions do, and its zero test raises before the
quotient is written. -/
theorem divideByZeroFaults : Obligations.DivideByZeroFaults :=
  ⟨beginsWithTwoRegs_div.checksA, beginsWithTwoRegs_div.checksB, fun _ _ a b => exec_div_of_zero a b⟩

end Sys2Proof.Machine
end

section
/-! PROOFS. The round trip of encoder and decoder (R47, R49, R54): the fields of a word, what the encoder's word dispatches
to, and the only bytes an instruction can be read from. -/

namespace Sys2Proof

variable {w : Byte} {ops : Operands} {bytes rest : List Byte} {i : Instr}

/-- Settles O5, field by field, as the arithmetic of a bit range. -/
theorem instructionWordFields : Obligations.InstructionWordFields := by
  intro w
  have hw := w.isLt
  refine ⟨?_, ?_, ?_, ?_⟩
  · rw [operandCountField, BitVec.extractLsb'_toNat, Nat.shiftRight_eq_div_pow]
    omega
  · rw [aluFlag, BitVec.getLsbD, Nat.testBit_eq_decide_div_mod_eq, decide_eq_true_iff]
  · rw [setsPcFlag, BitVec.getLsbD, Nat.testBit_eq_decide_div_mod_eq, decide_eq_true_iff]
  · rw [opcodeField, BitVec.extractLsb'_toNat, Nat.shiftRight_zero]

/-- Settles O4: each row of the table of canonical words, decoded. -/
theorem canonicalWordsDecode : Obligations.CanonicalWordsDecode :=
  ⟨rfl, rfl, rfl, rfl, rfl, rfl, rfl, rfl⟩

/-- R47: A clear, by arithmetic. -/
theorem not_div_32_mod_2 (hA : aluFlag w = false) : ¬ w.toNat / 32 % 2 = 1 := by
  obtain ⟨-, hflag, -⟩ := instructionWordFields w
  rw [← hflag, hA]
  exact Bool.false_ne_true

/-- R48, R52: the six bits of a word that dispatch is keyed on. -/
def keyField (w : Byte) : BitVec 6 :=
  w.extractLsb' 0 6

/-- R47: a word is its operand count over its key. -/
theorem operandCountField_append_keyField (w : Byte) : operandCountField w ++ keyField w = w :=
  BitVec.extractLsb'_append_extractLsb' (w := 2) (len := 6)

/-- R47: a key is the ALU-class flag over the opcode. -/
theorem aluFlag_append_opcodeField (w : Byte) : BitVec.ofBool (aluFlag w) ++ opcodeField w = keyField w := by
  have hflag : BitVec.ofBool (aluFlag w) = w.extractLsb' 5 1 := by
    ext i hi
    obtain rfl : i = 0 := by omega
    simp [aluFlag]
  rw [hflag]
  exact BitVec.extractLsb'_append_extractLsb'_eq_extractLsb' rfl

theorem operandCountField_word (i : Instr) : operandCountField i.word = BitVec.ofNat 2 i.operands.count :=
  BitVec.extractLsb'_append_eq_left

theorem keyField_word (i : Instr) : keyField i.word = i.key :=
  BitVec.extractLsb'_append_eq_right

theorem opcodeField_of_keyField {key : BitVec 6} (h : keyField w = key) : opcodeField w = key.extractLsb' 0 5 := by
  rw [← h, ← aluFlag_append_opcodeField, BitVec.extractLsb'_append_eq_right]

theorem aluFlag_of_keyField {key : BitVec 6} (h : keyField w = key) : aluFlag w = key.getLsbD 5 := by
  rw [← h, keyField, BitVec.getLsbD_extractLsb']
  rfl

theorem key_of_aluInstr {op : BitVec 5} (h : aluInstr op ops = some i) : i.key = 1#1 ++ op ∧ i.operands = ops := by
  obtain ⟨rfl, rfl⟩ | ⟨rfl, rfl⟩ | ⟨rfl, rfl⟩ | ⟨rfl, rfl⟩ | ⟨rfl, rfl⟩ :=
    aluInstr_eq_some_iff.mp h <;> exact ⟨rfl, rfl⟩

theorem key_of_handlerInstr {op : BitVec 5} (h : handlerInstr op ops = some i) :
    i.key = 0#1 ++ op ∧ i.operands = ops := by
  obtain ⟨rfl, rfl⟩ | ⟨rfl, rfl⟩ | ⟨rfl, rfl⟩ | ⟨rfl, rfl⟩ | ⟨rfl, rfl⟩ | ⟨rfl, rfl⟩ | ⟨rfl, rfl⟩ | ⟨rfl, rfl⟩ |
    ⟨rfl, rfl⟩ | ⟨rfl, rfl⟩ := handlerInstr_eq_some_iff.mp h <;> exact ⟨rfl, rfl⟩

/-- R54: the tables have an entry for each instruction's key. -/
theorem selectInstr_of_keyField (h : keyField w = i.key) (rest : List Byte) :
    selectInstr w i.operands rest = .instr i rest := by
  have hA := aluFlag_of_keyField h
  have hop := opcodeField_of_keyField h
  cases i <;> simp [selectInstr, hA, hop, Instr.key, Instr.operands, aluInstr, handlerInstr]

/-- R52, R54: dispatch answers an instruction only for its key, with the operands it was given. -/
theorem keyField_of_selectInstr (h : selectInstr w ops rest = .instr i rest) :
    keyField w = i.key ∧ i.operands = ops := by
  rw [← aluFlag_append_opcodeField]
  cases hA : aluFlag w with
  | true =>
    obtain ⟨hkey, hops⟩ := key_of_aluInstr ((selectInstr_alu_eq_instr_iff hA).mp h)
    exact ⟨hkey.symm, hops⟩
  | false =>
    obtain ⟨hkey, hops⟩ := key_of_handlerInstr ((selectInstr_handler_eq_instr_iff hA).mp h)
    exact ⟨hkey.symm, hops⟩

/-- R57: the no-op is what a handler word without an entry dispatches to. -/
theorem selectInstr_of_unassigned_handler (hA : aluFlag w = false) (h : handlerInstr (opcodeField w) ops = none) :
    selectInstr w ops rest = .noop (opcodeField w) ops rest := by
  simp [selectInstr, hA, h]

/-- R47, R49: a word whose field N counts the operand bytes after it reaches dispatch with these bytes. -/
theorem decode_operands_bytes (h : operandCountField w = BitVec.ofNat 2 ops.count) (rest : List Byte) :
    decode (w :: (ops.bytes ++ rest)) = selectInstr w ops rest := by
  cases ops with
  | zero => exact decode_of_count_zero h
  | one a => exact decode_of_count_one h
  | two a b => exact decode_of_count_two h

/-- R49: the four values of N. -/
theorem operandCountField_cases (w : Byte) : operandCountField w = 0#2 ∨ operandCountField w = 1#2 ∨
    operandCountField w = 2#2 ∨ operandCountField w = 3#2 := by
  bv_omega

/-- R49, R50: what the decoder can make of a list of bytes: the list ends too early, the word has N = 3, or a word with as
many operand bytes after it as its field N says reaches dispatch. -/
theorem decode_cases (bytes : List Byte) :
    (bytes.length ≤ 2 ∧ decode bytes = .missingByte bytes.length) ∨
      (∃ w, operandCountField w = 3#2 ∧ decode bytes = .illegalOperandCount w) ∨
      ∃ w ops rest, operandCountField w = BitVec.ofNat 2 ops.count ∧ bytes = w :: (ops.bytes ++ rest) ∧
        decode bytes = selectInstr w ops rest := by
  match bytes with
  | [] => exact .inl ⟨by decide, rfl⟩
  | w :: tail =>
    obtain hN | hN | hN | hN := operandCountField_cases w
    · exact .inr (.inr ⟨w, .zero, tail, hN, rfl, decode_of_count_zero hN⟩)
    · match tail with
      | [] => exact .inl ⟨by simp, decode_word_alone (.inl hN)⟩
      | a :: rest => exact .inr (.inr ⟨w, .one a, rest, hN, rfl, decode_of_count_one hN⟩)
    · match tail with
      | [] => exact .inl ⟨by simp, decode_word_alone (.inr hN)⟩
      | [_] => exact .inl ⟨by simp, decode_one_byte_of_two hN⟩
      | a :: b :: rest => exact .inr (.inr ⟨w, .two a b, rest, hN, rfl, decode_of_count_two hN⟩)
    · exact .inr (.inl ⟨w, hN, decode_of_count_three hN⟩)

/-- R53, R55, R57: what dispatch can answer: an instruction with the operands it was given, the no-op, or
UnsupportedOperation. -/
theorem selectInstr_cases (w : Byte) (ops : Operands) (rest : List Byte) :
    (∃ i : Instr, i.operands = ops ∧ selectInstr w ops rest = .instr i rest) ∨
      selectInstr w ops rest = .noop (opcodeField w) ops rest ∨
      ((opcodeField w).toNat ∉ [0, 1, 2, 3, 7] ∧ selectInstr w ops rest = .unsupportedOperation (opcodeField w)) := by
  cases hA : aluFlag w with
  | true =>
    cases h : aluInstr (opcodeField w) ops with
    | some i => exact .inl ⟨i, (key_of_aluInstr h).2, (selectInstr_alu_eq_instr_iff hA).mpr h⟩
    | none =>
      have hop := aluInstr_eq_none_iff.mp h
      exact .inr (.inr ⟨hop, selectInstr_of_unassigned_alu hA hop⟩)
  | false =>
    cases h : handlerInstr (opcodeField w) ops with
    | some i => exact .inl ⟨i, (key_of_handlerInstr h).2, (selectInstr_handler_eq_instr_iff hA).mpr h⟩
    | none => exact .inr (.inl (selectInstr_of_unassigned_handler hA h))

/-- What dispatch leaves over is what it was given. -/
theorem rest_of_selectInstr {rest' : List Byte} (h : selectInstr w ops rest' = .instr i rest) : rest' = rest := by
  obtain ⟨j, -, h'⟩ | h' | ⟨-, h'⟩ := selectInstr_cases w ops rest' <;> cases h'.symm.trans h
  rfl

/-- Settles O1: the word's count brings the operand bytes to dispatch, and its key is the instruction's. -/
theorem encodeThenDecodeReturnsTheInstruction : Obligations.EncodeThenDecodeReturnsTheInstruction := by
  intro i rest
  exact (decode_operands_bytes (operandCountField_word i) rest).trans
    (selectInstr_of_keyField (keyField_word i) rest)

/-- Settles O2: the word is put together again from its count, which is the operand bytes', and its key, which is the
instruction's. -/
theorem decodedInstructionReencodesToItsBytes : Obligations.DecodedInstructionReencodesToItsBytes := by
  intro bytes rest i h
  obtain ⟨-, h'⟩ | ⟨w, -, h'⟩ | ⟨w, ops, rest', hcount, rfl, h'⟩ := decode_cases bytes
  · cases h'.symm.trans h
  · cases h'.symm.trans h
  · have hselect := h'.symm.trans h
    obtain rfl := rest_of_selectInstr hselect
    obtain ⟨hkey, rfl⟩ := keyField_of_selectInstr hselect
    have hword : w = i.word := by rw [← operandCountField_append_keyField w, hcount, hkey, Instr.word]
    rw [hword, encode, List.cons_append]

end Sys2Proof
end

section
/-! SUPPORT. A push, a pop and a return as operations on the state: what each leaves in the registers and in memory, and the
four stack instructions through them (R85, R86, R88, R89). -/

namespace Sys2Proof.Machine

variable {ops : Operands} {s : State} {a r : RegIndex} {v : Byte}

/-- R85, R88: the state after a push of `v`. -/
def State.pushed (s : State) (v : Byte) : State :=
  { s.setSp (s.sp - 1#8) with mem := s.mem.write (s.sp - 1#8).toNat v }

theorem pushed_reg_sp : (s.pushed v).reg 7 = s.reg 7 - 1#8 :=
  (State.reg_setReg s 7 7 _).trans (if_pos rfl)

theorem pushed_reg_of_ne (h : r ≠ 7) : (s.pushed v).reg r = s.reg r :=
  (State.reg_setReg s 7 r _).trans (if_neg h)

theorem pushed_read_sp : (s.pushed v).mem.read (s.reg 7 - 1#8).toNat = v :=
  (Memory.read_write _ _ _ _).trans (if_pos rfl)

theorem pushed_read_of_ne {addr : Nat} (h : addr ≠ (s.reg 7 - 1#8).toNat) :
    (s.pushed v).mem.read addr = s.mem.read addr :=
  (Memory.read_write _ _ _ _).trans (if_neg h)

/-- D15: the register operand of PUSH and CALL, read after SP has been decremented. -/
def State.operandAfterPush (s : State) (a : RegIndex) : Byte :=
  if a = 7 then s.reg 7 - 1#8 else s.reg a

theorem exec_push_of_le (ha : ops.slotA.toNat = a.val) :
    exec (.push ops) s = .next (advance ops s (s.pushed (s.operandAfterPush a))) := by
  have hoperand : (s.setSp (s.sp - 1#8)).reg a = s.operandAfterPush a := State.reg_setReg s 7 a _
  rw [exec, execPush_of_reg ops s a ha, hoperand]
  rfl

theorem exec_call_of_le (ha : ops.slotA.toNat = a.val) (hret : nextAddress ops s ≤ 255) :
    exec (.call ops) s =
      .next (jumpTo (s.operandAfterPush a) (s.pushed (BitVec.ofNat 8 (nextAddress ops s)))) := by
  have hoperand : (s.setSp (s.sp - 1#8)).reg a = s.operandAfterPush a := State.reg_setReg s 7 a _
  rw [exec, execCall_of_reg ops s a ha hret, hoperand]
  rfl

/-- R86: the state after a pop into register `a`. -/
def State.popped (s : State) (a : RegIndex) : State :=
  (s.setReg a (s.mem.read s.sp.toNat)).setSp ((s.setReg a (s.mem.read s.sp.toNat)).sp + 1#8)

theorem exec_pop_of_le (ha : ops.slotA.toNat = a.val) : exec (.pop ops) s = .next (advance ops s (s.popped a)) :=
  execPop_of_reg ops s a ha

/-- R86: a pop into SP leaves the byte read plus one. -/
theorem popped_sp_reg_sp : (s.popped 7).reg 7 = s.mem.read (s.reg 7).toNat + 1#8 := by
  simp [State.popped, State.setSp, State.sp, Config.spIndex]

theorem popped_reg_sp (h : a ≠ 7) : (s.popped a).reg 7 = s.reg 7 + 1#8 := by
  simp [State.popped, State.setSp, State.sp, Config.spIndex, h.symm]

theorem popped_reg_self (h : a ≠ 7) : (s.popped a).reg a = s.mem.read (s.reg 7).toNat := by
  simp [State.popped, State.setSp, State.sp, Config.spIndex, h]

theorem popped_reg_of_ne (h : r ≠ a) (h' : r ≠ 7) : (s.popped a).reg r = s.reg r := by
  simp [State.popped, State.setSp, Config.spIndex, h, h']

/-- R89: the state a return leaves. -/
def State.returned (s : State) : State :=
  jumpTo (s.mem.read s.sp.toNat) ({ s with ra := s.mem.read s.sp.toNat }.setSp (s.sp + 1#8))

theorem exec_ret_eq : exec (.ret ops) s = .next s.returned :=
  execRet_next ops s

theorem returned_pc_toNat : s.returned.pc.toNat = (s.mem.read (s.reg 7).toNat).toNat :=
  jumpTo_pc_toNat _ _

theorem returned_reg_sp : s.returned.reg 7 = s.reg 7 + 1#8 :=
  (State.reg_setReg _ 7 7 _).trans (if_pos rfl)

theorem returned_reg_of_ne (h : r ≠ 7) : s.returned.reg r = s.reg r :=
  (State.reg_setReg _ 7 r _).trans (if_neg h)

end Sys2Proof.Machine
end

section
/-! SUPPORT. What every instruction does, said once: the fatal condition it meets, if any, and the whole state it completes
in otherwise. `exec_eq` ties both to the dispatcher; the proofs about all instructions cite it and unfold no meaning. -/

namespace Sys2Proof

open Machine

/-- R72: the register slot a names, where it names one. -/
def Operands.regA (ops : Operands) : RegIndex :=
  Fin.ofNat 8 ops.slotA.toNat

/-- R72: the register slot b names, where it names one. -/
def Operands.regB (ops : Operands) : RegIndex :=
  Fin.ofNat 8 ops.slotB.toNat

variable {ops : Operands} {i : Instr} {s t : State}

theorem Operands.slotA_eq_regA (h : ops.slotA.toNat ≤ 7) : ops.slotA.toNat = ops.regA.val :=
  (Nat.mod_eq_of_lt (Nat.lt_succ_of_le h)).symm

theorem Operands.slotB_eq_regB (h : ops.slotB.toNat ≤ 7) : ops.slotB.toNat = ops.regB.val :=
  (Nat.mod_eq_of_lt (Nat.lt_succ_of_le h)).symm

/-- The fatal condition of the instruction itself, once its register slots have passed CheckReg: DIV's zero divisor (R96)
and CALL's return address past memory (R88). -/
def Instr.ownFault (i : Instr) (s : State) : Option (FaultCause × Nat) :=
  match i with
  | .div ops => if s.reg ops.regB = 0x00#8 then some (.divideByZero, ops.slotB.toNat) else none
  | .call ops =>
    if 255 < s.pc.toNat + ops.count + 1 then some (.addressOutOfBounds, s.pc.toNat + ops.count + 1) else none
  | _ => none

/-- R72, R103: the fatal condition an instruction meets: its register slots, a before b, then its own. -/
def Instr.fault (i : Instr) (s : State) : Option (FaultCause × Nat) :=
  if i.slotAOk = false then some (.registerIndexOutOfRange, i.operands.slotA.toNat)
  else if i.slotBOk = false then some (.registerIndexOutOfRange, i.operands.slotB.toNat)
  else i.ownFault s

/-- The state an instruction completes in when it meets no fatal condition. -/
def Instr.completed (i : Instr) (s : State) : State :=
  match i with
  | .ldi ops => advance ops s (s.setReg ops.regA ops.slotB)
  | .prn ops => advance ops s (emitOut (s.reg ops.regA) s)
  | .hlt ops => advance ops s { s with status := .halted, reason := .hlt }
  | .push ops => advance ops s (s.pushed (s.operandAfterPush ops.regA))
  | .pop ops => advance ops s (s.popped ops.regA)
  | .call ops => jumpTo (s.operandAfterPush ops.regA) (s.pushed (BitVec.ofNat 8 (nextAddress ops s)))
  | .ret _ => s.returned
  | .jmp ops => jumpTo (s.reg ops.regA) s
  | .jeq ops => { s with
      pc := if equalFlag s.fl then (s.reg ops.regA).setWidth 9 else BitVec.ofNat 9 (nextAddress ops s) }
  | .jne ops => { s with
      pc := if equalFlag s.fl then BitVec.ofNat 9 (nextAddress ops s) else (s.reg ops.regA).setWidth 9 }
  | .add ops => advance ops s (s.setReg ops.regA (BitVec.ofNat 8 ((s.reg ops.regA).toNat + (s.reg ops.regB).toNat)))
  | .sub ops => advance ops s
      (s.setReg ops.regA (BitVec.ofNat 8 ((s.reg ops.regA).toNat + 256 - (s.reg ops.regB).toNat)))
  | .mul ops => advance ops s (s.setReg ops.regA (BitVec.ofNat 8 ((s.reg ops.regA).toNat * (s.reg ops.regB).toNat)))
  | .div ops => advance ops s (s.setReg ops.regA (BitVec.ofNat 8 ((s.reg ops.regA).toNat / (s.reg ops.regB).toNat)))
  | .cmp ops => advance ops s { s with fl := compareFlags (s.reg ops.regA) (s.reg ops.regB) }

/-- R75: an instruction with a register in slot b begins with the check of both slots. -/
theorem exec_eq_checkTwoRegs (h : i.slotBIsRegister = true) (s : State) :
    ∃ k, exec i s = checkTwoRegs s i.operands k := by
  cases i with
  | add ops => exact beginsWithTwoRegs_add ops s
  | sub ops => exact beginsWithTwoRegs_sub ops s
  | mul ops => exact beginsWithTwoRegs_mul ops s
  | div ops => exact beginsWithTwoRegs_div ops s
  | cmp ops => exact ⟨_, by rw [exec, execCmp]; rfl⟩
  | ldi | prn | hlt | push | pop | call | ret | jmp | jeq | jne => cases h

/-- R72: an instruction with a register in slot a begins with its check. -/
theorem exec_eq_checkReg (h : i.slotAIsRegister = true) (s : State) :
    ∃ k, exec i s = checkReg s i.operands.slotA k := by
  cases i with
  | ldi | prn | push | pop | call | jmp | jeq | jne =>
    simp only [exec, execLdi, execPrn, execPush, execPop, execCall, execJmp, execJeq, execJne]
    exact ⟨_, rfl⟩
  | add | sub | mul | div | cmp =>
    simp only [exec, execAdd, execSub, execMul, execDiv, execCmp, checkTwoRegs]
    exact ⟨_, rfl⟩
  | hlt | ret => cases h

theorem exec_of_slotAOk_false (h : i.slotAOk = false) :
    exec i s = .next (enterFault .registerIndexOutOfRange i.operands.slotA.toNat s) := by
  obtain ⟨hreg, hgt⟩ := i.slotAOk_false.mp h
  obtain ⟨k, hexec⟩ := exec_eq_checkReg hreg s
  exact hexec.trans (checkReg_of_gt hgt)

theorem Instr.slotA_le_of_slotBIsRegister (hA : i.slotAOk = true) (hB : i.slotBIsRegister = true) :
    i.operands.slotA.toNat ≤ 7 := by
  refine i.slotAOk_iff.mp hA ?_
  cases i with
  | add | sub | mul | div | cmp => rfl
  | ldi | prn | hlt | push | pop | call | ret | jmp | jeq | jne => cases hB

theorem exec_of_slotBOk_false (hA : i.slotAOk = true) (hB : i.slotBOk = false) :
    exec i s = .next (enterFault .registerIndexOutOfRange i.operands.slotB.toNat s) := by
  obtain ⟨hreg, hgt⟩ := i.slotBOk_false.mp hB
  obtain ⟨k, hexec⟩ := exec_eq_checkTwoRegs hreg s
  exact hexec.trans (checkTwoRegs_of_gt_b (Instr.slotA_le_of_slotBIsRegister hA hreg) hgt)

section

variable (a b : RegIndex) (ha : ops.slotA.toNat = a.val) (hb : ops.slotB.toNat = b.val)
include ha

/-- R83. -/
theorem exec_prn_of_le : exec (.prn ops) s = .next (advance ops s (emitOut (s.reg a) s)) := by
  rw [exec, execPrn, checkReg_of_le a ha]

/-- R91. -/
theorem exec_jeq_of_le :
    exec (.jeq ops) s = .next { s with
      pc := if equalFlag s.fl then (s.reg a).setWidth 9 else BitVec.ofNat 9 (nextAddress ops s) } := by
  rw [exec, execJeq, checkReg_of_le a ha]
  cases equalFlag s.fl <;> rfl

/-- R92. -/
theorem exec_jne_of_le :
    exec (.jne ops) s = .next { s with
      pc := if equalFlag s.fl then BitVec.ofNat 9 (nextAddress ops s) else (s.reg a).setWidth 9 } := by
  rw [exec, execJne, checkReg_of_le a ha]
  cases equalFlag s.fl <;> rfl

include hb

/-- R76. -/
theorem exec_add_of_le : exec (.add ops) s = writeAluResult s ops a ((s.reg a).toNat + (s.reg b).toNat) := by
  rw [exec, execAdd, checkTwoRegs_of_le a b ha hb]

/-- R77. -/
theorem exec_sub_of_le : exec (.sub ops) s = writeAluResult s ops a ((s.reg a).toNat + 256 - (s.reg b).toNat) := by
  rw [exec, execSub, checkTwoRegs_of_le a b ha hb]

/-- R78. -/
theorem exec_mul_of_le : exec (.mul ops) s = writeAluResult s ops a ((s.reg a).toNat * (s.reg b).toNat) := by
  rw [exec, execMul, checkTwoRegs_of_le a b ha hb]

/-- R79, with a divisor that is not 0. -/
theorem exec_div_of_ne_zero (hz : s.reg b ≠ 0x00#8) :
    exec (.div ops) s = writeAluResult s ops a ((s.reg a).toNat / (s.reg b).toNat) := by
  rw [exec, execDiv, checkTwoRegs_of_le a b ha hb, if_neg fun h : (s.reg b).toNat = 0 => hz (BitVec.eq_of_toNat_eq h)]

/-- R80. -/
theorem exec_cmp_of_le :
    exec (.cmp ops) s = .next (advance ops s { s with fl := compareFlags (s.reg a) (s.reg b) }) := by
  rw [exec, execCmp, checkTwoRegs_of_le a b ha hb]

end

/-- A well-formed instruction meets its own fatal condition or completes. -/
theorem exec_of_wf (hA : i.slotAOk = true) (hB : i.slotBOk = true) :
    exec i s = .next ((i.ownFault s).elim (i.completed s) fun f => enterFault f.1 f.2 s) := by
  have slotA (h : i.slotAIsRegister = true) := Operands.slotA_eq_regA (i.slotAOk_iff.mp hA h)
  have slotB (h : i.slotBIsRegister = true) := Operands.slotB_eq_regB (i.slotBOk_iff.mp hB h)
  cases i with
  | hlt ops => rfl
  | ret ops => exact exec_ret_eq
  | ldi ops => exact exec_ldi_of_le _ (slotA rfl)
  | prn ops => exact exec_prn_of_le _ (slotA rfl)
  | push ops => exact exec_push_of_le (slotA rfl)
  | pop ops => exact exec_pop_of_le (slotA rfl)
  | jmp ops => exact exec_jmp_of_le _ (slotA rfl)
  | jeq ops => exact exec_jeq_of_le _ (slotA rfl)
  | jne ops => exact exec_jne_of_le _ (slotA rfl)
  | call ops =>
    by_cases hret : 255 < s.pc.toNat + ops.count + 1
    · rw [Instr.ownFault, if_pos hret]
      exact execCall_of_full ops s _ (slotA rfl) hret
    · rw [Instr.ownFault, if_neg hret]
      exact exec_call_of_le (slotA rfl) (Nat.le_of_not_lt hret)
  | add ops => exact exec_add_of_le _ _ (slotA rfl) (slotB rfl)
  | sub ops => exact exec_sub_of_le _ _ (slotA rfl) (slotB rfl)
  | mul ops => exact exec_mul_of_le _ _ (slotA rfl) (slotB rfl)
  | div ops =>
    by_cases hz : s.reg ops.regB = 0x00#8
    · rw [Instr.ownFault, if_pos hz]
      exact (exec_div_of_zero _ _ (slotA rfl) (slotB rfl) hz).trans (by rw [← slotB rfl]; rfl)
    · rw [Instr.ownFault, if_neg hz]
      exact exec_div_of_ne_zero _ _ (slotA rfl) (slotB rfl) hz
  | cmp ops => exact exec_cmp_of_le _ _ (slotA rfl) (slotB rfl)

/-- What every instruction does: fault entry with the fatal condition it meets, or its completion. -/
theorem exec_eq (i : Instr) (s : State) :
    exec i s = .next ((i.fault s).elim (i.completed s) fun f => enterFault f.1 f.2 s) := by
  unfold Instr.fault
  cases hA : i.slotAOk with
  | false => exact exec_of_slotAOk_false hA
  | true =>
    cases hB : i.slotBOk with
    | false => exact exec_of_slotBOk_false hA hB
    | true => exact exec_of_wf hA hB

/-- A next state that is fault entry where there is a fatal condition, and `u` otherwise, is one of the two. -/
theorem cases_of_next_elim {condition : Option (FaultCause × Nat)} {u : State}
    (h : (.next (condition.elim u fun f => enterFault f.1 f.2 s) : Result) = .next t) :
    (∃ cause info, condition = some (cause, info) ∧ t = enterFault cause info s) ∨ (condition = none ∧ t = u) := by
  obtain rfl := Host.Outcome.next.inj h
  cases condition with
  | none => exact .inr ⟨rfl, rfl⟩
  | some f => exact .inl ⟨f.1, f.2, rfl, rfl⟩

/-- The two ways an instruction can end. -/
theorem exec_cases (h : exec i s = .next t) :
    (∃ cause info, i.fault s = some (cause, info) ∧ t = enterFault cause info s) ∨
      (i.fault s = none ∧ t = i.completed s) :=
  cases_of_next_elim ((exec_eq i s).symm.trans h)

end Sys2Proof
end

section
/-! SUPPORT. What every step of a Running machine does: the fatal condition its bytes meet, if any, and the state it
completes in otherwise; and that this fatal condition is the first one of R103. -/

namespace Sys2Proof

open Machine

variable {d : Decoded} {ops : Operands} {w : Byte} {i : Instr} {s t : State}

/-- R63, R65: the fatal condition of an outcome of the decoder. -/
def Decoded.fault (d : Decoded) (s : State) : Option (FaultCause × Nat) :=
  match d with
  | .instr i _ => i.fault s
  | .noop _ _ _ => none
  | .illegalOperandCount w => some (.illegalOperandCount, w.toNat)
  | .missingByte k => some (.addressOutOfBounds, s.pc.toNat + k)
  | .unsupportedOperation op => some (.unsupportedOperation, op.toNat)

/-- The state in which an outcome of the decoder without a fatal condition completes; the last three always have one. -/
def Decoded.completed (d : Decoded) (s : State) : State :=
  match d with
  | .instr i _ => i.completed s
  | .noop op ops _ => { s with pc := if opcodeSetsPc op then s.pc else BitVec.ofNat 9 (nextAddress ops s) }
  | .illegalOperandCount _ => s
  | .missingByte _ => s
  | .unsupportedOperation _ => s

theorem runDecoded_eq (d : Decoded) (s : State) :
    runDecoded d s = .next ((d.fault s).elim (d.completed s) fun f => enterFault f.1 f.2 s) := by
  cases d with
  | instr i rest => exact exec_eq i s
  | noop op ops rest =>
    rw [runDecoded, runNoop]
    cases h : opcodeSetsPc op <;> simp [Decoded.fault, Decoded.completed, h, advance]
  | illegalOperandCount | missingByte | unsupportedOperation => rfl

/-- The boundary changes nothing a fatal condition depends on. -/
theorem Decoded.fault_boundary (d : Decoded) (s : State) : d.fault (boundary s) = d.fault s := rfl

/-- What a step of a Running machine can do: take the stop, enter a fault, or complete. -/
theorem step_running_cases (hs : s.status = .running) (h : step s = .next t) :
    (stopAsserted s = true ∧ t = takeStop (boundary s)) ∨
      (stopAsserted s = false ∧ ∃ cause info, (decode (fetchBytes s)).fault s = some (cause, info) ∧
        t = enterFault cause info (boundary s)) ∨
      (stopAsserted s = false ∧ (decode (fetchBytes s)).fault s = none ∧
        t = (decode (fetchBytes s)).completed (boundary s)) := by
  cases hstop : stopAsserted s with
  | true => exact .inl ⟨rfl, Host.Outcome.next.inj (h.symm.trans (step_of_stop hs hstop))⟩
  | false =>
    rw [step_of_running hs hstop, runDecoded_eq] at h
    obtain h | h := cases_of_next_elim h
    · exact .inr (.inl ⟨rfl, h⟩)
    · exact .inr (.inr ⟨rfl, h⟩)

/-- The first condition of a list that holds. -/
def firstOf (conditions : List (Bool × FaultCause × Nat)) : Option (FaultCause × Nat) :=
  (conditions.find? fun c => c.1).map fun c => c.2

theorem firstOf_nil : firstOf [] = none := rfl

theorem firstOf_cons (holds : Bool) (f : FaultCause × Nat) (rest : List (Bool × FaultCause × Nat)) :
    firstOf ((holds, f) :: rest) = if holds then some f else firstOf rest := by
  cases holds <;> rfl

/-- The conditions of R103 that are left once the operand bytes have been read. -/
def dispatchConditions (w : Byte) (ops : Operands) (s : State) : List (Bool × FaultCause × Nat) :=
  let alu := w.toNat / 32 % 2 = 1
  let op := w.toNat % 32
  let a := ops.slotA.toNat
  let b := ops.slotB.toNat
  let aluOp := alu ∧ op ∈ [0, 1, 2, 3, 7]
  let handlerWithReg := ¬ alu ∧ op ∈ [2, 5, 6, 7, 16, 20, 21, 22]
  [ (decide (alu ∧ op ∉ [0, 1, 2, 3, 7]), .unsupportedOperation, op),
    (decide ((aluOp ∨ handlerWithReg) ∧ a > 7), .registerIndexOutOfRange, a),
    (decide (aluOp ∧ b > 7), .registerIndexOutOfRange, b),
    (decide (alu ∧ op = 3 ∧ s.reg ops.regB = 0x00#8), .divideByZero, b),
    (decide (¬ alu ∧ op = 16 ∧ s.pc.toNat + ops.count + 1 > 255), .addressOutOfBounds, s.pc.toNat + ops.count + 1) ]

/-- R55, R72, R96: of an ALU-class word they are the register slots' and DIV's. -/
theorem firstOf_dispatchConditions_of_alu (hA : aluFlag w = true) (h : aluInstr (opcodeField w) ops = some i) :
    firstOf (dispatchConditions w ops s) = i.fault s := by
  obtain ⟨-, hflag, -, hop⟩ := instructionWordFields w
  have halu := hflag.mp hA
  obtain ⟨hk, rfl⟩ | ⟨hk, rfl⟩ | ⟨hk, rfl⟩ | ⟨hk, rfl⟩ | ⟨hk, rfl⟩ := aluInstr_eq_some_iff.mp h <;>
  · rw [hk] at hop
    simp [dispatchConditions, firstOf_cons, firstOf_nil, ← hop, halu, Instr.fault, Instr.slotAOk_false,
      Instr.slotBOk_false, Instr.slotAIsRegister, Instr.slotBIsRegister, Instr.operands, Instr.ownFault]

/-- R72, R88: of a handler word they are slot a's and CALL's. -/
theorem firstOf_dispatchConditions_of_handler (hA : aluFlag w = false)
    (h : handlerInstr (opcodeField w) ops = some i) : firstOf (dispatchConditions w ops s) = i.fault s := by
  obtain ⟨-, -, -, hop⟩ := instructionWordFields w
  have halu := not_div_32_mod_2 hA
  obtain ⟨hk, rfl⟩ | ⟨hk, rfl⟩ | ⟨hk, rfl⟩ | ⟨hk, rfl⟩ | ⟨hk, rfl⟩ | ⟨hk, rfl⟩ | ⟨hk, rfl⟩ | ⟨hk, rfl⟩ | ⟨hk, rfl⟩ |
    ⟨hk, rfl⟩ := handlerInstr_eq_some_iff.mp h <;>
  · rw [hk] at hop
    simp [dispatchConditions, firstOf_cons, firstOf_nil, ← hop, halu, Instr.fault, Instr.slotAOk_false,
      Instr.slotBOk_false, Instr.slotAIsRegister, Instr.slotBIsRegister, Instr.operands, Instr.ownFault]

/-- R57: the handler opcodes without an entry. -/
theorem handlerInstr_eq_none_iff {op : BitVec 5} :
    handlerInstr op ops = none ↔ op.toNat ∉ [1, 2, 5, 6, 7, 16, 17, 20, 21, 22] := by
  unfold handlerInstr
  split <;> simp_all

/-- The fatal condition of what a word dispatches to is the first that is left once its operand bytes have been read. -/
theorem selectInstr_fault (w : Byte) (ops : Operands) (rest : List Byte) (s : State) :
    (selectInstr w ops rest).fault s = firstOf (dispatchConditions w ops s) := by
  obtain ⟨-, hflag, -, hop⟩ := instructionWordFields w
  cases hA : aluFlag w with
  | true =>
    cases h : aluInstr (opcodeField w) ops with
    | some i =>
      rw [(selectInstr_alu_eq_instr_iff hA).mpr h, firstOf_dispatchConditions_of_alu hA h, Decoded.fault]
    | none =>
      have hnone := aluInstr_eq_none_iff.mp h
      rw [selectInstr_of_unassigned_alu hA hnone, Decoded.fault, dispatchConditions, firstOf_cons, if_pos, hop]
      exact decide_eq_true ⟨hflag.mp hA, hop ▸ hnone⟩
  | false =>
    cases h : handlerInstr (opcodeField w) ops with
    | some i =>
      rw [(selectInstr_handler_eq_instr_iff hA).mpr h, firstOf_dispatchConditions_of_handler hA h, Decoded.fault]
    | none =>
      have halu := not_div_32_mod_2 hA
      have hnone := handlerInstr_eq_none_iff.mp h
      simp only [hop, List.mem_cons, List.not_mem_nil, or_false, not_or] at hnone
      rw [selectInstr_of_unassigned_handler hA h, Decoded.fault]
      simp [dispatchConditions, firstOf_cons, firstOf_nil, halu, hnone]

/-- The conditions of R103 on reading a word with N = `n` and its operand bytes. -/
def fetchConditions (w : Byte) (n : Nat) (s : State) : List (Bool × FaultCause × Nat) :=
  [ (decide (s.pc.toNat > 255), .addressOutOfBounds, s.pc.toNat),
    (decide (n = 3), .illegalOperandCount, w.toNat),
    (decide (n ≥ 1 ∧ s.pc.toNat + 1 > 255), .addressOutOfBounds, s.pc.toNat + 1),
    (decide (n ≥ 2 ∧ s.pc.toNat + 2 > 255), .addressOutOfBounds, s.pc.toNat + 2) ]

theorem firstOf_append (xs ys : List (Bool × FaultCause × Nat)) :
    firstOf (xs ++ ys) = (firstOf xs).or (firstOf ys) := by
  simp [firstOf, List.find?_append, Option.map_or]

/-- R103: the fatal conditions are those of reading the instruction, then those of dispatching it. -/
theorem firstFault_eq_or (hcount : (s.mem.read s.pc.toNat).toNat / 64 = ops.count)
    (hA : ops.slotA.toNat = if ops.count ≥ 1 then (s.mem.read (s.pc.toNat + 1)).toNat else 0)
    (hB : ops.slotB.toNat = if ops.count ≥ 2 then (s.mem.read (s.pc.toNat + 2)).toNat else 0) :
    firstFault s = (firstOf (fetchConditions (s.mem.read s.pc.toNat) ops.count s)).or
      (firstOf (dispatchConditions (s.mem.read s.pc.toNat) ops s)) := by
  rw [← firstOf_append]
  simp only [firstFault, firstOf, faultConditions, fetchConditions, dispatchConditions, hcount, hA, hB, Operands.regB,
    List.cons_append, List.nil_append]

/-- The operand count of the word at `pc`, as R103 reads it. -/
theorem toNat_div_64_eq {n : BitVec 2} (h : operandCountField w = n) : w.toNat / 64 = n.toNat := by
  obtain ⟨hcount, -⟩ := instructionWordFields w
  rw [← hcount, h]

theorem firstFault_of_fetchConditions {f : FaultCause × Nat}
    (h : firstOf (fetchConditions (s.mem.read s.pc.toNat) ((s.mem.read s.pc.toNat).toNat / 64) s) = some f) :
    firstFault s = some f := by
  have hfirst : ∃ later, firstFault s = firstOf
      (fetchConditions (s.mem.read s.pc.toNat) ((s.mem.read s.pc.toNat).toNat / 64) s ++ later) := ⟨_, rfl⟩
  obtain ⟨later, hfirst⟩ := hfirst
  rw [hfirst, firstOf_append, h, Option.some_or]

/-- R65: no word can be fetched. -/
theorem firstFault_of_pc_gt (hpc : 255 < s.pc.toNat) : firstFault s = some (.addressOutOfBounds, s.pc.toNat) := by
  refine firstFault_of_fetchConditions ?_
  rw [fetchConditions, firstOf_cons, if_pos (decide_eq_true hpc)]

/-- R49. -/
theorem firstFault_of_count_three (hpc : s.pc.toNat ≤ 255) (hN : operandCountField (s.mem.read s.pc.toNat) = 3#2) :
    firstFault s = some (.illegalOperandCount, (s.mem.read s.pc.toNat).toNat) := by
  refine firstFault_of_fetchConditions ?_
  simp only [fetchConditions, firstOf_cons, decide_eq_true_eq, toNat_div_64_eq hN]
  rw [if_neg (by omega), if_pos (by rfl)]

/-- R50: the first operand byte lies past memory. -/
theorem firstFault_of_missing_first (hpc : s.pc.toNat = 255)
    (hN : operandCountField (s.mem.read s.pc.toNat) = 1#2 ∨ operandCountField (s.mem.read s.pc.toNat) = 2#2) :
    firstFault s = some (.addressOutOfBounds, s.pc.toNat + 1) := by
  refine firstFault_of_fetchConditions ?_
  obtain hN | hN := hN <;>
  · simp only [fetchConditions, firstOf_cons, decide_eq_true_eq, toNat_div_64_eq hN, BitVec.toNat_ofNat]
    rw [if_neg (by omega), if_neg (by omega), if_pos (by omega)]

/-- R50: the second operand byte lies past memory. -/
theorem firstFault_of_missing_second (hpc : s.pc.toNat = 254) (hN : operandCountField (s.mem.read s.pc.toNat) = 2#2) :
    firstFault s = some (.addressOutOfBounds, s.pc.toNat + 2) := by
  refine firstFault_of_fetchConditions ?_
  simp only [fetchConditions, firstOf_cons, decide_eq_true_eq, toNat_div_64_eq hN, BitVec.toNat_ofNat]
  rw [if_neg (by omega), if_neg (by omega), if_neg (by omega), if_pos (by omega)]

/-- R103: once the operand bytes are read, the conditions left are those of dispatch. -/
theorem firstFault_of_fits (hfit : Fits ops s) (hcount : (s.mem.read s.pc.toNat).toNat / 64 = ops.count)
    (hA : ops.slotA.toNat = if ops.count ≥ 1 then (s.mem.read (s.pc.toNat + 1)).toNat else 0)
    (hB : ops.slotB.toNat = if ops.count ≥ 2 then (s.mem.read (s.pc.toNat + 2)).toNat else 0) :
    firstFault s = firstOf (dispatchConditions (s.mem.read s.pc.toNat) ops s) := by
  have hle := Operands.count_le ops
  have hnone : firstOf (fetchConditions (s.mem.read s.pc.toNat) ops.count s) = none := by
    simp only [fetchConditions, firstOf_cons, firstOf_nil, decide_eq_true_eq]
    rw [if_neg (by omega), if_neg (by omega), if_neg (by omega), if_neg (by omega)]
  rw [firstFault_eq_or hcount hA hB, hnone, Option.none_or]

/-- R103: the fatal condition of what the fetched bytes decode to is the first one of the list. -/
theorem decode_fetchBytes_fault (s : State) : (decode (fetchBytes s)).fault s = firstFault s := by
  by_cases hpc : s.pc.toNat ≤ 255
  · obtain hN | hN | hN | hN := operandCountField_cases (s.mem.read s.pc.toNat)
    · obtain ⟨rest, hfetch⟩ := fetchBytes_of_le_255 hpc
      rw [hfetch, decode_of_count_zero hN, selectInstr_fault]
      exact (firstFault_of_fits (ops := .zero) hpc (toNat_div_64_eq hN) rfl rfl).symm
    · by_cases hlast : s.pc.toNat = 255
      · rw [fetchBytes_at_255 (BitVec.eq_of_toNat_eq hlast), decode_word_alone (.inl (hlast ▸ hN)),
          firstFault_of_missing_first hlast (.inl hN), Decoded.fault]
      · obtain ⟨rest, hfetch⟩ := fetchBytes_of_le_254 (s := s) (by omega)
        rw [hfetch, decode_of_count_one hN, selectInstr_fault]
        refine (firstFault_of_fits (ops := .one _) ?_ (toNat_div_64_eq hN) rfl rfl).symm
        show s.pc.toNat + 1 ≤ 255
        omega
    · by_cases hlast : s.pc.toNat = 255
      · rw [fetchBytes_at_255 (BitVec.eq_of_toNat_eq hlast), decode_word_alone (.inr (hlast ▸ hN)),
          firstFault_of_missing_first hlast (.inr hN), Decoded.fault]
      by_cases hlast' : s.pc.toNat = 254
      · rw [fetchBytes_at_254 (BitVec.eq_of_toNat_eq hlast'), decode_one_byte_of_two (hlast' ▸ hN),
          firstFault_of_missing_second hlast' hN, Decoded.fault]
      · rw [fetchBytes_of_le_253 (by omega), decode_of_count_two hN, selectInstr_fault]
        refine (firstFault_of_fits (ops := .two _ _) ?_ (toNat_div_64_eq hN) rfl rfl).symm
        show s.pc.toNat + 2 ≤ 255
        omega
    · obtain ⟨rest, hfetch⟩ := fetchBytes_of_le_255 hpc
      rw [hfetch, decode_of_count_three hN, firstFault_of_count_three hpc hN, Decoded.fault]
  · have hfetch : fetchBytes s = [] := by rw [fetchBytes_eq, if_neg (by omega)]
    rw [hfetch, firstFault_of_pc_gt (by omega)]
    rfl

end Sys2Proof
end

section
/-! SUPPORT. The fatal condition of a step is one its cause can have (R94, R95), and what a step completes in keeps the
parts of the invariant that every instruction is responsible for. -/

namespace Sys2Proof

open Machine

variable {ops : Operands} {i : Instr} {cause : FaultCause} {info : Nat} {s t : State}

theorem length_bytesFrom (m : Memory) (addr k : Nat) :
    (m.bytesFrom addr k).length = min k (Config.memorySize - addr) := by
  induction k generalizing addr with
  | zero => rw [Memory.bytesFrom, List.length_nil, Nat.zero_min]
  | succ k ih =>
    rw [Memory.bytesFrom]
    split
    · rw [List.length_cons, ih]
      omega
    · rw [List.length_nil]
      omega

theorem length_fetchBytes (s : State) : (fetchBytes s).length = min 3 (256 - s.pc.toNat) :=
  length_bytesFrom s.mem s.pc.toNat 3

theorem Operands.length_bytes (ops : Operands) : ops.bytes.length = ops.count := by
  cases ops <;> rfl

/-- R69: operand bytes that have been fetched lie inside memory. -/
theorem fits_of_fetchBytes {w : Byte} {rest : List Byte} (h : fetchBytes s = w :: (ops.bytes ++ rest)) :
    Fits ops s := by
  have hlength := length_fetchBytes s
  rw [h, List.length_cons, List.length_append, ops.length_bytes] at hlength
  omega

/-- R94, R95: the fatal condition of an instruction that lies inside memory. -/
theorem Instr.fault_legal (hfit : Fits i.operands s) (h : i.fault s = some (cause, info)) :
    FaultRecord.Legal { cause := cause, pc := s.pc, info := info } := by
  unfold Instr.fault at h
  split at h
  · next hA =>
    cases h
    exact ⟨(i.slotAOk_false.mp hA).2, Nat.le_of_lt_succ i.operands.slotA.isLt⟩
  split at h
  · next hB =>
    cases h
    exact ⟨(i.slotBOk_false.mp hB).2, Nat.le_of_lt_succ i.operands.slotB.isLt⟩
  · next hB =>
    have hB := i.slotBOk_iff.mp (by simpa using hB)
    cases i with
    | div ops =>
      simp only [Instr.ownFault] at h
      split at h
      · cases h
        exact hB rfl
      · cases h
    | call ops =>
      simp only [Instr.ownFault] at h
      split at h
      · next hret =>
        cases h
        exact Nat.le_antisymm (Nat.succ_le_succ hfit) hret
      · cases h
    | ldi | prn | hlt | push | pop | ret | jmp | jeq | jne | add | sub | mul | cmp => cases h

/-- R94, R95: the fatal condition of the bytes at `pc`. -/
theorem decode_fault_legal (hpc : s.pc.toNat ≤ 256) (h : (decode (fetchBytes s)).fault s = some (cause, info)) :
    FaultRecord.Legal { cause := cause, pc := s.pc, info := info } := by
  obtain ⟨hlength, hd⟩ | ⟨w, hN, hd⟩ | ⟨w, ops, rest, -, hbytes, hd⟩ := decode_cases (fetchBytes s) <;> rw [hd] at h
  · cases h
    have := length_fetchBytes s
    show s.pc.toNat + (fetchBytes s).length = 256
    omega
  · cases h
    have hcount := toNat_div_64_eq hN
    have hw := w.isLt
    show 192 ≤ w.toNat ∧ w.toNat ≤ 255
    simp only [BitVec.toNat_ofNat] at hcount
    omega
  · obtain ⟨i, rfl, hsel⟩ | hsel | ⟨hop, hsel⟩ := selectInstr_cases w ops rest <;> rw [hsel] at h
    · exact Instr.fault_legal (fits_of_fetchBytes hbytes) h
    · cases h
    · cases h
      exact ⟨Nat.le_of_lt_succ (opcodeField w).isLt, hop⟩

/-- R32: an instruction stores at a byte address, so memory stays canonical. -/
theorem Instr.completed_mem_wf (i : Instr) (h : s.mem.wf = true) : (i.completed s).mem.wf = true := by
  cases i with
  | push | call => exact Memory.wf_write h (s.sp - 1#8).isLt
  | ldi | prn | hlt | pop | ret | jmp | jeq | jne | add | sub | mul | div | cmp => exact h

/-- R69: the end of an instruction inside memory is at most 256. -/
theorem nextAddress_toNat_le (hfit : Fits ops s) : (BitVec.ofNat 9 (nextAddress ops s)).toNat ≤ 256 := by
  rw [BitVec.toNat_ofNat, nextAddress]
  exact Nat.le_trans (Nat.mod_le _ _) (Nat.succ_le_succ hfit)

/-- R14: a jump lands in 0..255. -/
theorem setWidth_toNat_le (v : Byte) : (v.setWidth 9).toNat ≤ 256 := by
  rw [BitVec.toNat_setWidth]
  exact Nat.le_trans (Nat.mod_le _ _) (Nat.le_of_lt v.isLt)

/-- R14, R69: an instruction inside memory completes with a reachable `pc`. -/
theorem Instr.completed_pc_le (hfit : Fits i.operands s) : (i.completed s).pc.toNat ≤ 256 := by
  have hadvance := nextAddress_toNat_le hfit
  cases i with
  | ldi | prn | hlt | push | pop | add | sub | mul | div | cmp => exact hadvance
  | call | ret | jmp => exact setWidth_toNat_le _
  | jeq =>
    dsimp only [Instr.completed]
    split
    · exact setWidth_toNat_le _
    · exact hadvance
  | jne =>
    dsimp only [Instr.completed]
    split
    · exact hadvance
    · exact setWidth_toNat_le _

theorem legalFlags_compareFlags (x y : Byte) : legalFlags (compareFlags x y) = true := by
  unfold compareFlags
  split
  · rfl
  split
  · rfl
  · rfl

/-- R13: only CMP writes `fl`, and it writes one of the three flags. -/
theorem Instr.completed_fl_legal (i : Instr) (h : legalFlags s.fl = true) : legalFlags (i.completed s).fl = true := by
  cases i with
  | cmp => exact legalFlags_compareFlags _ _
  | ldi | prn | hlt | push | pop | call | ret | jmp | jeq | jne | add | sub | mul | div => exact h

end Sys2Proof
end

section
/-! SUPPORT. What completing leaves unchanged, for an instruction and for every outcome of the decoder. -/

namespace Sys2Proof

open Machine

variable {d : Decoded} {i : Instr} {s t : State}

theorem Instr.completed_fault (i : Instr) (s : State) : (i.completed s).fault = s.fault := by
  cases i <;> rfl

theorem Instr.completed_keepsHostSide (i : Instr) (s : State) : KeepsHostSide s (i.completed s) := by
  cases i <;> exact ⟨rfl, rfl, rfl, rfl, rfl⟩

/-- R68: of the instructions that complete only HLT changes the lifecycle. -/
theorem Instr.completed_status (h : ∀ ops, i ≠ .hlt ops) :
    (i.completed s).status = s.status ∧ (i.completed s).reason = s.reason := by
  cases i with
  | hlt ops => exact absurd rfl (h ops)
  | ldi | prn | push | pop | call | ret | jmp | jeq | jne | add | sub | mul | div | cmp => exact ⟨rfl, rfl⟩

theorem Decoded.completed_fault (d : Decoded) (s : State) : (d.completed s).fault = s.fault := by
  cases d with
  | instr i rest => exact i.completed_fault s
  | noop | illegalOperandCount | missingByte | unsupportedOperation => rfl

theorem Decoded.completed_keepsHostSide (d : Decoded) (s : State) : KeepsHostSide s (d.completed s) := by
  cases d with
  | instr i rest => exact i.completed_keepsHostSide s
  | noop | illegalOperandCount | missingByte | unsupportedOperation => exact ⟨rfl, rfl, rfl, rfl, rfl⟩

/-- R68, R84: completing HLT halts the machine, and completing anything else keeps the lifecycle. -/
theorem Decoded.completed_status_cases (d : Decoded) (s : State) :
    ((∀ ops rest, d ≠ .instr (.hlt ops) rest) ∧ (d.completed s).status = s.status ∧
      (d.completed s).reason = s.reason) ∨
      ((∃ ops rest, d = .instr (.hlt ops) rest) ∧ (d.completed s).status = .halted ∧
        (d.completed s).reason = .hlt) := by
  by_cases hhlt : ∃ ops rest, d = .instr (.hlt ops) rest
  · obtain ⟨ops, rest, rfl⟩ := hhlt
    exact .inr ⟨⟨ops, rest, rfl⟩, rfl, rfl⟩
  · have hne : ∀ ops rest, d ≠ .instr (.hlt ops) rest := fun ops rest hd => hhlt ⟨ops, rest, hd⟩
    refine .inl ⟨hne, ?_⟩
    cases d with
    | instr i rest => exact Instr.completed_status fun ops hi => hne ops rest (hi ▸ rfl)
    | noop | illegalOperandCount | missingByte | unsupportedOperation => exact ⟨rfl, rfl⟩

theorem Decoded.completed_mem_wf (d : Decoded) (h : s.mem.wf = true) : (d.completed s).mem.wf = true := by
  cases d with
  | instr i rest => exact i.completed_mem_wf h
  | noop | illegalOperandCount | missingByte | unsupportedOperation => exact h

theorem Decoded.completed_fl_legal (d : Decoded) (h : legalFlags s.fl = true) :
    legalFlags (d.completed s).fl = true := by
  cases d with
  | instr i rest => exact i.completed_fl_legal h
  | noop | illegalOperandCount | missingByte | unsupportedOperation => exact h

/-- R14: what the bytes at `pc` complete in has a reachable `pc`. -/
theorem decode_completed_pc_le (hpc : s.pc.toNat ≤ 256) : ((decode (fetchBytes s)).completed s).pc.toNat ≤ 256 := by
  obtain ⟨-, hd⟩ | ⟨w, -, hd⟩ | ⟨w, ops, rest, -, hbytes, hd⟩ := decode_cases (fetchBytes s)
  · rwa [hd]
  · rwa [hd]
  · obtain ⟨i, rfl, hsel⟩ | hsel | ⟨-, hsel⟩ := selectInstr_cases w ops rest <;> rw [hd, hsel]
    · exact Instr.completed_pc_le (fits_of_fetchBytes hbytes)
    · dsimp only [Decoded.completed]
      split
      · exact hpc
      · exact nextAddress_toNat_le (fits_of_fetchBytes hbytes)
    · exact hpc

end Sys2Proof
end

section
/-! PROOFS. The invariant of the machine (R13, R14, R17 to R19, R22, R32): each way a step can end keeps it. -/

namespace Sys2Proof.Machine

variable {s t : State}

/-- R17 to R19, R22: while Running nothing has been recorded yet. -/
theorem State.Inv.of_running (h : s.Inv) (hs : s.status = .running) :
    s.reason = .none ∧ s.fault = none ∧ s.trace = [] := by
  have hreason : s.reason = .none := h.reason_none.mpr (by simp [hs])
  refine ⟨hreason, ?_, ?_⟩
  · exact Option.not_isSome_iff_eq_none.mp fun hf => by simp [h.fault_recorded.mp hf] at hreason
  · rw [h.trace_one, hreason]
    rfl

/-- Fault entry from a state that is not Stopped keeps the invariant when the record is legal. -/
theorem State.Inv.enterFault (h : s.Inv) (htrace : s.trace = []) {cause : FaultCause} {info : Nat}
    (hlegal : FaultRecord.Legal { cause := cause, pc := s.pc, info := info }) : (enterFault cause info s).Inv where
  mem_wf := h.mem_wf
  pc_le := h.pc_le
  fl_legal := h.fl_legal
  ready_fresh := fun hs => by cases hs
  reason_none := by simp
  fault_recorded := by simp
  fault_legal := fun f hf => by
    cases hf
    exact ⟨rfl, hlegal⟩
  trace_one := by simp [htrace]

/-- A state reached from a Running one by completing an instruction meets the invariant. -/
theorem State.Inv.of_completed (h : s.Inv) (hs : s.status = .running) (hmem : t.mem.wf = true) (hpc : t.pc.toNat ≤ 256)
    (hfl : legalFlags t.fl = true) (hfault : t.fault = s.fault) (htrace : t.trace = s.trace)
    (hstatus : (t.status = .running ∧ t.reason = s.reason) ∨ (t.status = .halted ∧ t.reason = .hlt)) : t.Inv := by
  obtain ⟨hreason, hnofault, hnotrace⟩ := h.of_running hs
  obtain ⟨hst, hre⟩ | ⟨hst, hre⟩ := hstatus <;>
  exact
    { mem_wf := hmem
      pc_le := hpc
      fl_legal := hfl
      ready_fresh := by simp [hst]
      reason_none := by simp [hst, hre, hreason]
      fault_recorded := by simp [hfault, hnofault, hre, hreason]
      fault_legal := by simp [hfault, hnofault]
      trace_one := by simp [htrace, hnotrace, hre, hreason] }

/-- The host's fields, apart from the `run()` calls that wait in Ready, play no part in the invariant. -/
theorem State.Inv.withHost (h : s.Inv) {runs : Nat} (hruns : s.status = .ready → runs = 0) (draws : List Bool)
    (calls : List (Option HostCall)) (replies : List HostReply) :
    ({ s with stopReq := draws, hostCalls := calls, hostReplies := replies, runsWaiting := runs } : State).Inv where
  mem_wf := h.mem_wf
  pc_le := h.pc_le
  fl_legal := h.fl_legal
  ready_fresh := fun hs => by
    obtain ⟨hregs, hfl, hpc, hra, hout, -⟩ := h.ready_fresh hs
    exact ⟨hregs, hfl, hpc, hra, hout, hruns hs⟩
  reason_none := h.reason_none
  fault_recorded := h.fault_recorded
  fault_legal := h.fault_legal
  trace_one := h.trace_one

theorem State.Inv.boundary (h : s.Inv) (hs : s.status = .running) : (boundary s).Inv :=
  h.withHost (by simp [hs]) _ _ _

/-- R106: the stop leaves its one record, of the state it left. -/
theorem State.Inv.takeStop (h : s.Inv) (hs : s.status = .running) : (takeStop s).Inv := by
  obtain ⟨-, hnofault, hnotrace⟩ := h.of_running hs
  exact
    { mem_wf := h.mem_wf
      pc_le := h.pc_le
      fl_legal := h.fl_legal
      ready_fresh := fun hready => by cases hready
      reason_none := by simp [Machine.takeStop]
      fault_recorded := by simp [Machine.takeStop, hnofault]
      fault_legal := by simp [Machine.takeStop, hnofault]
      trace_one := by
        simp only [Machine.takeStop, hnotrace]
        rfl }

theorem State.Inv.step_running (h : s.Inv) (hs : s.status = .running) (hstep : step s = .next t) : t.Inv := by
  have hb := h.boundary hs
  obtain ⟨-, rfl⟩ | ⟨-, cause, info, hfault, rfl⟩ | ⟨-, -, rfl⟩ := step_running_cases hs hstep
  · exact hb.takeStop hs
  · exact hb.enterFault (h.of_running hs).2.2 (decode_fault_legal h.pc_le hfault)
  · have hpc : ((decode (fetchBytes s)).completed (Machine.boundary s)).pc.toNat ≤ 256 :=
      decode_completed_pc_le (s := Machine.boundary s) hb.pc_le
    refine hb.of_completed hs (Decoded.completed_mem_wf _ hb.mem_wf) hpc (Decoded.completed_fl_legal _ hb.fl_legal)
      (Decoded.completed_fault _ _) (Decoded.completed_keepsHostSide _ _).1 ?_
    obtain ⟨-, hst, hre⟩ | ⟨-, hst, hre⟩ := (decode (fetchBytes s)).completed_status_cases (Machine.boundary s)
    · exact .inl ⟨hst.trans hs, hre⟩
    · exact .inr ⟨hst, hre⟩

/-- R61, R62, R98: the host's turn in Ready. -/
theorem State.Inv.readyTurn (h : s.Inv) (hs : s.status = .ready) : (readyTurn s).Inv := by
  obtain ⟨hregs, hfl, hpc, hra, hout, hruns⟩ := h.ready_fresh hs
  have hreason : s.reason = .none := h.reason_none.mpr (by simp [hs])
  have hnotrace : s.trace = [] := by rw [h.trace_one, hreason]; rfl
  obtain ⟨-, hturn⟩ | ⟨bytes, -, hlen, hturn⟩ | ⟨bytes, -, hlen, hturn⟩ | ⟨-, hturn⟩ :=
    readyTurn_cases hs <;> rw [hturn]
  · exact h.withHost (fun _ => hruns) _ _ _
  · exact
      { mem_wf := Memory.wf_ofBytes hlen
        pc_le := h.pc_le
        fl_legal := h.fl_legal
        ready_fresh := h.ready_fresh
        reason_none := h.reason_none
        fault_recorded := h.fault_recorded
        fault_legal := h.fault_legal
        trace_one := by simp [hreason, hnotrace] }
  · have hfault := h.enterFault (cause := .malformedImage) (info := bytes.length) hnotrace ⟨hlen, hpc⟩
    exact hfault.withHost (by simp) _ _ _
  · exact
      { mem_wf := h.mem_wf
        pc_le := h.pc_le
        fl_legal := h.fl_legal
        ready_fresh := fun hs => by cases hs
        reason_none := by simp [hreason, startLoop, nextHostCall]
        fault_recorded := h.fault_recorded
        fault_legal := h.fault_legal
        trace_one := h.trace_one }

/-- Settles O19: each way a step can end keeps every clause. -/
theorem everyStepKeepsTheInvariant : Obligations.EveryStepKeepsTheInvariant := by
  intro s t h hstep
  cases hs : s.status with
  | ready =>
    cases hstep.symm.trans (step_of_ready hs)
    exact h.readyTurn hs
  | running => exact h.step_running hs hstep
  | halted =>
    cases hstep.symm.trans (step_of_halted hs)
    exact h.withHost (by simp [hs]) _ _ _

end Sys2Proof.Machine
end

section
/-! PROOFS. The step of the Execution Loop (R63 to R65, R57, R103): what it fetches, what it runs, and the fatal condition it
reports. -/

namespace Sys2Proof.Machine

variable {s t : State}

/-- Settles O7: the boundary is passed, then the decoder's instruction runs. -/
theorem stepRunsTheDecodedInstruction : Obligations.StepRunsTheDecodedInstruction :=
  fun _ _ _ hs hdecode => ⟨step_of_decode hs hdecode, rfl⟩

/-- Settles O8: at each place of `pc`, the bytes that are there and what the decoder's rules make of them. -/
theorem fetchReadsTheWordThenItsOperandBytes : Obligations.FetchReadsTheWordThenItsOperandBytes := by
  intro s hs
  refine ⟨fun hpc => ?_, fun hpc hN => ?_, fun hpc hN => ?_, fun hpc hN => ?_, fun hpc hN => ?_, fun hpc hN => ?_⟩
  · refine step_of_missingByte (k := 0) hs ?_ (by rw [hpc]; rfl)
    rw [fetchBytes_eq, hpc]
    rfl
  · refine step_of_missingByte (k := 1) hs ?_ (by rw [hpc]; rfl)
    rw [fetchBytes_at_255 hpc, decode_word_alone hN]
  · refine step_of_missingByte (k := 2) hs ?_ (by rw [hpc]; rfl)
    rw [fetchBytes_at_254 hpc, decode_one_byte_of_two hN]
  · obtain ⟨rest, hfetch⟩ := fetchBytes_of_le_255 hpc
    exact ⟨rest, step_of_decode hs (by rw [hfetch, decode_of_count_zero hN])⟩
  · obtain ⟨rest, hfetch⟩ := fetchBytes_of_le_254 hpc
    exact ⟨rest, step_of_decode hs (by rw [hfetch, decode_of_count_one hN])⟩
  · exact ⟨[], step_of_decode hs (by rw [fetchBytes_of_le_253 hpc, decode_of_count_two hN])⟩

/-- Settles O9: the count is checked before any operand byte is looked at. -/
theorem operandCountThreeFaults : Obligations.OperandCountThreeFaults := by
  intro s hs hpc hN
  obtain ⟨rest, hfetch⟩ := fetchBytes_of_le_255 hpc
  exact step_of_decode hs (by rw [hfetch, decode_of_count_three hN])

/-- R48: P is the value 16 of the opcode. -/
theorem opcodeSetsPc_iff (op : BitVec 5) : opcodeSetsPc op = true ↔ 16 ≤ op.toNat := by
  have hop := op.isLt
  rw [opcodeSetsPc, BitVec.getLsbD, Nat.testBit_eq_decide_div_mod_eq, decide_eq_true_iff]
  omega

/-- Settles O11: the word reaches dispatch and finds no handler, so the step is the no-op's. -/
theorem unassignedHandlerWordIsANoop : Obligations.UnassignedHandlerWordIsANoop := by
  intro s hs w hfit hN hA hop
  obtain ⟨ops, rest, hcount, hdecode⟩ := decode_fetchBytes_of_fits hfit hN
  have hnoop := hdecode.trans (selectInstr_of_unassigned_handler hA (handlerInstr_eq_none_iff.mpr hop))
  refine ⟨_, (step_of_decode hs hnoop).trans (runDecoded_eq _ _), rfl, ?_⟩
  have hnext : (BitVec.ofNat 9 (nextAddress ops s)).toNat = s.pc.toNat + ops.count + 1 :=
    advance_pc_toNat s s ops (hcount ▸ hfit)
  rw [← hcount, ← hnext]
  show (if opcodeSetsPc (opcodeField w) then s.pc else BitVec.ofNat 9 (nextAddress ops s)).toNat = _
  by_cases hP : opcodeSetsPc (opcodeField w) = true
  · have := (opcodeSetsPc_iff _).mp hP
    rw [if_pos hP, if_neg (by omega)]
  · have := mt (opcodeSetsPc_iff _).mpr hP
    rw [if_neg hP, if_pos (by omega)]

/-- Settles O12: the fatal condition of the bytes at `pc` is the first of the list, and where there is none the step
completes, with the lifecycle changed by HLT alone. -/
theorem stepReportsTheFirstFaultInPriorityOrder : Obligations.StepReportsTheFirstFaultInPriorityOrder := by
  intro s hs
  obtain ⟨hrunning, hstop⟩ := hs
  refine ⟨_, (step_of_running hrunning hstop).trans (runDecoded_eq _ _), ?_⟩
  rw [Decoded.fault_boundary, decode_fetchBytes_fault]
  cases firstFault s with
  | some f => rfl
  | none =>
    refine ⟨Decoded.completed_fault _ _, ?_⟩
    obtain ⟨-, hst, hre⟩ | ⟨-, hst, hre⟩ := (decode (fetchBytes s)).completed_status_cases (boundary s)
    · exact .inl ⟨hst.trans hrunning, hre⟩
    · exact .inr ⟨hst, hre⟩

/-- Settles O14: in each status a step is one of the host's turns, a stop, or what the decoder's outcome does. -/
theorem everyStepAnswersANextState : Obligations.EveryStepAnswersANextState := by
  refine ⟨fun s => ?_, fun i s => ⟨_, exec_eq i s⟩⟩
  cases hs : s.status with
  | ready => exact ⟨_, step_of_ready hs⟩
  | halted => exact ⟨_, step_of_halted hs⟩
  | running =>
    cases hstop : stopAsserted s with
    | true => exact ⟨_, step_of_stop hs hstop⟩
    | false => exact ⟨_, (step_of_running hs hstop).trans (runDecoded_eq _ _)⟩

/-- Settles O17: the stop's one record is that of the state the boundary leaves, which holds the same CORE. -/
theorem stopRequestIsTakenBeforeTheFetch : Obligations.StopRequestIsTakenBeforeTheFetch :=
  fun s hs hstop => ⟨traceRecord s, step_of_stop hs hstop, rfl, rfl, rfl, rfl, rfl⟩

end Sys2Proof.Machine
end

section
/-! PROOFS. The lifecycle (R68, R71, R84, R101): what halts the machine, and what a Ready or a Halted one does. -/

namespace Sys2Proof.Machine

variable {s t : State}

/-- Settles O13: an instruction that completes halts the machine only as HLT, and one that does not is fault entry. -/
theorem onlyHltAndFaultsHalt : Obligations.OnlyHltAndFaultsHalt := by
  intro i s t h hs ht
  obtain ⟨cause, info, -, rfl⟩ | ⟨-, rfl⟩ := exec_cases h
  · exact .inr ⟨cause, info, rfl⟩
  · by_cases hhlt : ∃ ops, i = .hlt ops
    · obtain ⟨ops, rfl⟩ := hhlt
      exact .inl ⟨ops, rfl, rfl, rfl⟩
    · obtain ⟨hst, -⟩ := Instr.completed_status (s := s) fun ops hi => hhlt ⟨ops, hi⟩
      cases (hst.trans hs).symm.trans ht

theorem hostCall_eq_headD (s : State) : hostCall s = s.hostCalls.headD none := rfl

/-- R23: `load_image` is refused while Halted. -/
theorem repliesWhileHalted_of_load {bytes : List Byte} (hs : s.status = .halted)
    (hcall : hostCall s = some (.loadImage bytes)) : repliesWhileHalted s = [.imageRefused] := by
  simp only [repliesWhileHalted, hcall]
  rw [loadImage_of_not_ready bytes (by simp [hs])]

theorem repliesWhileHalted_of_none (hcall : hostCall s = none) : repliesWhileHalted s = [] := by
  simp only [repliesWhileHalted, hcall]

theorem repliesWhileHalted_of_run (hcall : hostCall s = some .run) : repliesWhileHalted s = [runReply s] := by
  simp only [repliesWhileHalted, hcall]

/-- R71: the answers a Halted CORE gives in one step. -/
def haltedReplies (s : State) : List HostReply :=
  List.replicate s.runsWaiting (runReply s) ++ repliesWhileHalted s

theorem length_haltedReplies (s : State) :
    (haltedReplies s).length = s.runsWaiting + (s.hostCalls.take 1).countP Option.isSome := by
  rw [haltedReplies, List.length_append, List.length_replicate, repliesWhileHalted, hostCall_eq_headD]
  rcases s.hostCalls with _ | ⟨_ | _ | _, _⟩ <;> rfl

theorem mem_haltedReplies (hs : s.status = .halted) {r : HostReply} (hr : r ∈ haltedReplies s) :
    r = .imageRefused ∨ r = .runReturned s.reason s.fault := by
  obtain hr | hr := List.mem_append.mp hr
  · exact .inr (List.eq_of_mem_replicate hr)
  · match hcall : hostCall s with
    | none =>
      rw [repliesWhileHalted_of_none hcall] at hr
      cases hr
    | some (.loadImage bytes) =>
      rw [repliesWhileHalted_of_load hs hcall] at hr
      exact .inl (List.mem_singleton.mp hr)
    | some .run =>
      rw [repliesWhileHalted_of_run hcall] at hr
      exact .inr (List.mem_singleton.mp hr)

/-- R71: what `k` steps of a Halted CORE leave, when they gave the answers `replies`. -/
def afterHalt (k : Nat) (s : State) (replies : List HostReply) : State :=
  { s with
    hostCalls := s.hostCalls.drop k, hostReplies := s.hostReplies ++ replies,
    runsWaiting := if k = 0 then s.runsWaiting else 0 }

theorem afterHalt_zero (s : State) : afterHalt 0 s [] = s := by
  rw [afterHalt, List.append_nil]
  rfl

theorem afterHalt_haltedTurn (k : Nat) (s : State) (replies : List HostReply) :
    afterHalt k (haltedTurn s) replies = afterHalt (k + 1) s (haltedReplies s ++ replies) := by
  simp [afterHalt, haltedTurn, haltedReplies, nextHostCall]

/-- Settles O15, by induction on the number of steps. -/
theorem haltedIsTerminal : Obligations.HaltedIsTerminal := by
  intro k
  induction k with
  | zero =>
    intro s _
    exact ⟨s, [], rfl, (afterHalt_zero s).symm, rfl, by simp⟩
  | succ k ih =>
    intro s hs
    obtain ⟨t, replies, hrun, rfl, hlength, hall⟩ := ih (haltedTurn s) hs
    refine ⟨_, haltedReplies s ++ replies, (core_run_succ k (step_of_halted hs)).trans hrun,
      afterHalt_haltedTurn k s replies, ?_, fun r hr => ?_⟩
    · have hcalls : (haltedTurn s).hostCalls = s.hostCalls.drop 1 := List.drop_one.symm
      have hruns : (haltedTurn s).runsWaiting = 0 := rfl
      rw [List.length_append, hlength, length_haltedReplies, hcalls, hruns, if_neg k.succ_ne_zero, ite_self,
        Nat.add_comm k 1, List.take_add, List.countP_append]
      omega
    · exact (List.mem_append.mp hr).elim (mem_haltedReplies hs) (hall r)

/-- Settles O16: the ways a step can end, by status. -/
theorem lifecycleHasNoOtherTransition : Obligations.LifecycleHasNoOtherTransition := by
  intro s t h
  refine ⟨fun hs => ?_, fun hs => ?_, fun hs => ?_⟩
  · cases h.symm.trans (step_of_ready hs)
    obtain ⟨hcall, hturn⟩ | ⟨bytes, hcall, hlen, hturn⟩ | ⟨bytes, hcall, hlen, hturn⟩ | ⟨hcall, hturn⟩ :=
      readyTurn_cases hs <;> rw [hturn]
    · exact .inl ⟨hs, rfl, .inl hcall⟩
    · exact .inl ⟨hs, rfl, .inr ⟨bytes, hcall, hlen⟩⟩
    · exact .inr (.inr ⟨rfl, rfl, bytes, hcall, hlen, rfl⟩)
    · exact .inr (.inl ⟨rfl, rfl, hcall⟩)
  · obtain ⟨hstop, rfl⟩ | ⟨hstop, cause, info, -, rfl⟩ | ⟨hstop, -, rfl⟩ := step_running_cases hs h
    · exact .inr (.inr (.inr ⟨rfl, rfl, hstop⟩))
    · exact .inr (.inr (.inl ⟨rfl, rfl, rfl, hstop⟩))
    · obtain ⟨hne, hst, hre⟩ | ⟨hhlt, hst, hre⟩ := (decode (fetchBytes s)).completed_status_cases (boundary s)
      · exact .inl ⟨hst.trans hs, hre, Decoded.completed_fault _ _, hstop, hne⟩
      · exact .inr (.inl ⟨hst, hre, hstop, hhlt⟩)
  · cases h.symm.trans (step_of_halted hs)
    exact ⟨hs, rfl, rfl⟩

/-- The state with other stop requests to come. -/
def State.setStopReq (draws : List Bool) (s : State) : State :=
  { s with stopReq := draws }

/-- R21: a transaction made in Ready does not look at the stop requests to come. -/
theorem readyTurn_setStopReq (hs : s.status = .ready) (draws : List Bool) :
    readyTurn (s.setStopReq draws) = (readyTurn s).setStopReq draws := by
  have hcall : hostCall (s.setStopReq draws) = hostCall s := rfl
  have hs' : (s.setStopReq draws).status = .ready := hs
  unfold readyTurn
  rw [hcall]
  match hostCall s with
  | none => rfl
  | some .run => rfl
  | some (.loadImage bytes) =>
    by_cases hb : bytes.length ≤ 256
    · simp only [loadImage_of_fits hs hb, loadImage_of_fits hs' hb]
      rfl
    · simp only [loadImage_of_too_long hs (Nat.lt_of_not_le hb), loadImage_of_too_long hs' (Nat.lt_of_not_le hb)]
      rfl

/-- R21: nor does one made while Halted. -/
theorem haltedTurn_setStopReq (hs : s.status = .halted) (draws : List Bool) :
    haltedTurn (s.setStopReq draws) = (haltedTurn s).setStopReq draws := by
  have hcall : hostCall (s.setStopReq draws) = hostCall s := rfl
  have hreplies : repliesWhileHalted (s.setStopReq draws) = repliesWhileHalted s := by
    match hcall' : hostCall s with
    | none => rw [repliesWhileHalted_of_none hcall', repliesWhileHalted_of_none (hcall.trans hcall')]
    | some (.loadImage bytes) =>
      rw [repliesWhileHalted_of_load hs hcall',
        repliesWhileHalted_of_load (s := s.setStopReq draws) hs (hcall.trans hcall')]
    | some .run =>
      rw [repliesWhileHalted_of_run hcall', repliesWhileHalted_of_run (hcall.trans hcall')]
      rfl
  rw [haltedTurn, hreplies]
  rfl

/-- Settles O18: the turn of a Ready or of a Halted CORE carries any other stop requests through. -/
theorem stopRequestHasNoEffectOutsideRunning : Obligations.StopRequestHasNoEffectOutsideRunning := by
  intro s t draws hs h
  obtain hst | hst : s.status = .ready ∨ s.status = .halted := by
    cases hst : s.status with
    | ready => exact .inl rfl
    | running => exact absurd hst hs
    | halted => exact .inr rfl
  · cases h.symm.trans (step_of_ready hst)
    exact (step_of_ready (s := s.setStopReq draws) hst).trans (congrArg _ (readyTurn_setStopReq hst draws))
  · cases h.symm.trans (step_of_halted hst)
    exact (step_of_halted (s := s.setStopReq draws) hst).trans (congrArg _ (haltedTurn_setStopReq hst draws))

end Sys2Proof.Machine
end

section
/-! PROOFS. DIV, CMP, PRN, HLT and the conditional branches (R79, R80, R83, R84, R91, R92): each from its equation. -/

namespace Sys2Proof.Machine

variable {ops : Operands} {s : State}

/-- Settles O26: the quotient of two bytes is a byte, and `Nat`'s division is bounded as the statement says. -/
theorem divStoresTheIntegerQuotient : Obligations.DivStoresTheIntegerQuotient := by
  intro ops s a b ha hb hfit hz
  have hpos : 0 < (s.reg b).toNat := Nat.pos_of_ne_zero fun h => hz (BitVec.eq_of_toNat_eq h)
  have hbyte : (s.reg a).toNat / (s.reg b).toNat < 256 := Nat.lt_of_le_of_lt (Nat.div_le_self _ _) (s.reg a).isLt
  obtain ⟨t, hrun, hvalue, hframe⟩ := writeAluResult_next a ((s.reg a).toNat / (s.reg b).toNat) hfit
  rw [Nat.mod_eq_of_lt hbyte] at hvalue
  refine ⟨t, (exec_div_of_ne_zero a b ha hb hz).trans hrun, ?_, ?_, hframe⟩
  · rw [hvalue]
    exact Nat.div_mul_le_self _ _
  · rw [hvalue]
    exact Nat.lt_mul_of_div_lt (Nat.lt_succ_self _) hpos

/-- R80: the three outcomes of a comparison. -/
theorem compareFlags_cases (x y : Byte) :
    (x.toNat < y.toNat ∧ compareFlags x y = flagLess) ∨ (y.toNat < x.toNat ∧ compareFlags x y = flagGreater) ∨
      (x = y ∧ compareFlags x y = flagEqual) := by
  obtain h | h | h := Nat.lt_trichotomy x.toNat y.toNat
  · exact .inl ⟨h, if_pos h⟩
  · obtain rfl := BitVec.eq_of_toNat_eq h
    exact .inr (.inr ⟨rfl, by simp [compareFlags]⟩)
  · exact .inr (.inl ⟨h, by rw [compareFlags, if_neg (by omega), if_pos h]⟩)

/-- R80: L, G and E say which outcome it was, and no other bit is set. -/
theorem compareFlags_bits (x y : Byte) :
    ((compareFlags x y).getLsbD 2 = true ↔ x.toNat < y.toNat) ∧
      ((compareFlags x y).getLsbD 1 = true ↔ x.toNat > y.toNat) ∧
      ((compareFlags x y).getLsbD 0 = true ↔ x = y) ∧ (compareFlags x y).toNat < 8 := by
  obtain ⟨h, hfl⟩ | ⟨h, hfl⟩ | ⟨h, hfl⟩ := compareFlags_cases x y <;> rw [hfl]
  · have hne : x ≠ y := fun he => Nat.ne_of_lt h (congrArg _ he)
    exact ⟨iff_of_true rfl h, iff_of_false (by decide) (Nat.lt_asymm h), iff_of_false (by decide) hne, by decide⟩
  · have hne : x ≠ y := fun he => Nat.ne_of_gt h (congrArg _ he)
    exact ⟨iff_of_false (by decide) (Nat.lt_asymm h), iff_of_true rfl h, iff_of_false (by decide) hne, by decide⟩
  · subst h
    exact ⟨iff_of_false (by decide) (Nat.lt_irrefl _), iff_of_false (by decide) (Nat.lt_irrefl _),
      iff_of_true rfl rfl, by decide⟩

/-- Settles O28: what CMP writes is `compareFlags`, whose bits these are. -/
theorem cmpSetsExactlyOneFlag : Obligations.CmpSetsExactlyOneFlag := by
  intro ops s a b ha hb hfit
  obtain ⟨hless, hgreater, hequal, hlow⟩ := compareFlags_bits (s.reg a) (s.reg b)
  exact ⟨_, exec_cmp_of_le a b ha hb, hless, hgreater, hequal, hlow, advance_pc_toNat _ s ops hfit, rfl⟩

/-- Settles O30: `emitOut` appends the register's byte, and the loop advances. -/
theorem prnEmitsTheRegister : Obligations.PrnEmitsTheRegister :=
  fun ops s a ha hfit => ⟨_, exec_prn_of_le a ha, rfl, advance_pc_toNat _ s ops hfit, rfl⟩

/-- Settles O31: HLT checks no operand, so it completes with any. -/
theorem hltHaltsAndAdvances : Obligations.HltHaltsAndAdvances :=
  fun ops s hfit => ⟨_, rfl, rfl, rfl, advance_pc_toNat _ s ops hfit, rfl⟩

/-- Settles O38: both branches test bit E, and only `pc` is written. -/
theorem jeqAndJneTestTheEqualFlag : Obligations.JeqAndJneTestTheEqualFlag := by
  intro ops s a ha hfit
  have hjump : ((s.reg a).setWidth 9).toNat = (s.reg a).toNat := jumpTo_pc_toNat s (s.reg a)
  have hnext : (BitVec.ofNat 9 (nextAddress ops s)).toNat = s.pc.toNat + ops.count + 1 := advance_pc_toNat s s ops hfit
  refine ⟨⟨_, exec_jeq_of_le a ha, rfl, ?_⟩, ⟨_, exec_jne_of_le a ha, rfl, ?_⟩⟩
  · rw [apply_ite BitVec.toNat, hjump, hnext]
    rfl
  · rw [apply_ite BitVec.toNat, hjump, hnext]
    rfl

end Sys2Proof.Machine
end

section
/-! PROOFS. The stack (R85, R86, R88, R89): the four instructions, how they undo each other, and that a byte stored is the
byte fetched (R40). -/

namespace Sys2Proof.Machine

/-- R10, D24: the decrement of SP wraps. -/
theorem toNat_sub_one (x : Byte) : (x - 1#8).toNat = (x.toNat + 255) % 256 := by
  bv_omega

/-- R10, D24: so does the increment. -/
theorem toNat_add_one (x : Byte) : (x + 1#8).toNat = (x.toNat + 1) % 256 := by
  bv_omega

/-- Settles O32: PUSH is a push of its operand, read after SP has been decremented. -/
theorem pushStoresBelowTheStackPointer : Obligations.PushStoresBelowTheStackPointer := by
  intro ops s a ha hfit
  refine ⟨_, exec_push_of_le ha, ?_⟩
  simp only [advance_reg, advance_mem, pushed_reg_sp]
  exact ⟨toNat_sub_one _, fun r => pushed_reg_of_ne, pushed_read_sp, fun addr => pushed_read_of_ne,
    advance_pc_toNat _ s ops hfit, rfl⟩

/-- Settles O34: CALL is a push of the return address, which a byte holds, and a jump. -/
theorem callPushesTheReturnAddressAndJumps : Obligations.CallPushesTheReturnAddressAndJumps := by
  intro ops s a ha hret
  refine ⟨_, exec_call_of_le ha hret, ?_⟩
  simp only [jumpTo_reg, jumpTo_mem, pushed_reg_sp]
  refine ⟨toNat_sub_one _, fun r => pushed_reg_of_ne, ?_, fun addr => pushed_read_of_ne, jumpTo_pc_toNat _ _, rfl⟩
  rw [pushed_read_sp, BitVec.toNat_ofNat]
  exact Nat.mod_eq_of_lt (Nat.lt_succ_of_le hret)

/-- Settles O35: the return address is checked before the push. -/
theorem callWithReturnAddress256Faults : Obligations.CallWithReturnAddress256Faults := by
  intro ops s a ha hret
  have hfull : nextAddress ops s = 256 := hret
  have hexec := execCall_of_full ops s a ha (by omega)
  rw [hfull] at hexec
  exact hexec

/-- Settles O33: the byte read goes into the register first and SP is incremented after that, so R7 keeps the byte plus
one. -/
theorem popLoadsFromTheStackPointer : Obligations.PopLoadsFromTheStackPointer := by
  intro ops s a ha hfit
  refine ⟨_, exec_pop_of_le ha, ?_⟩
  simp only [advance_reg]
  refine ⟨fun h => ⟨popped_reg_self h, ?_⟩, fun h => ?_, fun r => popped_reg_of_ne, advance_pc_toNat _ s ops hfit, rfl⟩
  · rw [popped_reg_sp h, toNat_add_one]
  · rw [h, popped_sp_reg_sp, toNat_add_one]

/-- Settles O36: RET reads at a byte address, so it never faults. -/
theorem retPopsIntoTheLatchAndJumps : Obligations.RetPopsIntoTheLatchAndJumps := by
  intro ops s
  refine ⟨_, exec_ret_eq, rfl, returned_pc_toNat, ?_, fun r => returned_reg_of_ne, rfl⟩
  rw [returned_reg_sp, toNat_add_one]

/-- Settles O44: the byte PUSH left at SP is the one POP reads, and SP is decremented and incremented. -/
theorem pushThenPopRestoresTheRegister : Obligations.PushThenPopRestoresTheRegister := by
  intro ops ops' s a b ha hb
  refine ⟨_, exec_push_of_le ha, fun m hsp hread => ⟨_, exec_pop_of_le hb, ?_⟩⟩
  simp only [advance_reg, advance_mem, pushed_reg_sp] at hsp hread ⊢
  rw [pushed_read_sp] at hread
  have hback : m.reg 7 + 1#8 = s.reg 7 := by rw [hsp, BitVec.sub_add_cancel]
  have hcopy (ha7 : a ≠ 7) (hb7 : b ≠ 7) : (m.popped b).reg b = s.reg a ∧ (m.popped b).reg 7 = s.reg 7 := by
    rw [popped_reg_self hb7, popped_reg_sp hb7, hread, State.operandAfterPush, if_neg ha7]
    exact ⟨rfl, hback⟩
  refine ⟨?_, hcopy⟩
  rintro rfl
  by_cases ha7 : a = 7
  · subst ha7
    rw [popped_sp_reg_sp, hread, State.operandAfterPush, if_pos rfl, BitVec.sub_add_cancel]
    exact ⟨rfl, rfl⟩
  · exact hcopy ha7 ha7

/-- Settles O45: the byte CALL left at SP is the return address. -/
theorem callThenRetReturnsAfterTheCall : Obligations.CallThenRetReturnsAfterTheCall := by
  intro ops ops' s a ha hret
  refine ⟨_, exec_call_of_le ha hret, fun m hsp hread => ⟨_, exec_ret_eq, ?_, ?_⟩⟩
  all_goals simp only [jumpTo_reg, jumpTo_mem, pushed_reg_sp] at hsp hread
  · rw [returned_pc_toNat, hread, pushed_read_sp, BitVec.toNat_ofNat]
    exact Nat.mod_eq_of_lt (Nat.lt_succ_of_le hret)
  · rw [returned_reg_sp, hsp, BitVec.sub_add_cancel]

/-- Settles O48: the next fetch at the address pushed to begins with the byte stored there. -/
theorem storedByteIsFetched : Obligations.StoredByteIsFetched := by
  intro ops s a ha hret m hm
  have hfetch (hpc : m.pc.toNat ≤ 255) : (fetchBytes m).head? = some (m.mem.read m.pc.toNat) := by
    obtain ⟨bytes, hbytes⟩ := fetchBytes_of_le_255 hpc
    rw [hbytes, List.head?_cons]
  have hpc : m.pc.toNat ≤ 255 := by
    rw [hm]
    exact Nat.le_of_lt_succ (s.reg 7 - 1#8).isLt
  refine ⟨⟨_, exec_push_of_le ha, fun hmem => ?_⟩, ⟨_, exec_call_of_le ha hret, fun hmem => ?_⟩⟩
  · rw [hfetch hpc, hmem, hm, advance_mem, pushed_read_sp]
    rfl
  · rw [hfetch hpc, hmem, hm, jumpTo_mem, pushed_read_sp]
    rfl

end Sys2Proof.Machine
end

section
/-! PROOFS. CheckReg over every instruction (R72), the frames of the tables of register writers and of memory accesses, and
the return latch (R16): each from what an instruction completes in. -/

namespace Sys2Proof.Machine

variable {i : Instr} {ops : Operands} {s t : State}

/-- R88, R96: an instruction's own fatal condition is not CheckReg's. -/
theorem ownFault_cause_ne {cause : FaultCause} {info : Nat} (h : i.ownFault s = some (cause, info)) :
    cause ≠ .registerIndexOutOfRange := by
  cases i with
  | div | call =>
    simp only [Instr.ownFault] at h
    split at h <;> cases h
    decide
  | ldi | prn | hlt | push | pop | ret | jmp | jeq | jne | add | sub | mul | cmp => cases h

theorem fault_of_wf (h : i.wf = true) : i.fault s = i.ownFault s := by
  obtain ⟨hA, hB⟩ := i.wf_iff.mp h
  rw [Instr.fault, if_neg (by simp [hA]), if_neg (by simp [hB])]

/-- Settles O39: the two checks come first, and after them only the instruction's own fatal condition is left. -/
theorem registerIndexAboveSevenFaults : Obligations.RegisterIndexAboveSevenFaults := by
  refine fun i s => ⟨exec_of_slotAOk_false, exec_of_slotBOk_false, fun hwf t h => ?_⟩
  obtain ⟨cause, info, hfault, rfl⟩ | ⟨-, rfl⟩ := exec_cases h
  · exact .inr ⟨_, rfl, ownFault_cause_ne ((fault_of_wf hwf).symm.trans hfault)⟩
  · exact .inl (i.completed_fault s)

/-- Only the host and a stop use the host's channels. -/
theorem keepsHostSide_of_exec (h : exec i s = .next t) : KeepsHostSide s t := by
  obtain ⟨cause, info, -, rfl⟩ | ⟨-, rfl⟩ := exec_cases h
  · exact ⟨rfl, rfl, rfl, rfl, rfl⟩
  · exact i.completed_keepsHostSide s

/-- R68, R101: but for HLT, only a fatal condition changes the lifecycle fields. -/
theorem keepsOrFaults_of_exec (h : exec i s = .next t) (hhlt : ∀ ops, i ≠ .hlt ops) : KeepsOrFaults s t := by
  obtain ⟨cause, info, -, rfl⟩ | ⟨-, rfl⟩ := exec_cases h
  · exact .inr ⟨cause, info, rfl, rfl, rfl⟩
  · obtain ⟨hst, hre⟩ := Instr.completed_status (s := s) hhlt
    exact .inl ⟨hst, hre, i.completed_fault s⟩

/-- An instruction that completes has passed its checks, so its slot a names the register. -/
theorem slotA_eq_regA_of_completes (h : i.fault s = none) (hreg : i.slotAIsRegister = true) :
    i.operands.slotA.toNat = i.operands.regA.val := by
  have hA : i.slotAOk = true := by
    cases hA : i.slotAOk with
    | true => rfl
    | false =>
      rw [Instr.fault, if_pos hA] at h
      cases h
  exact Operands.slotA_eq_regA (i.slotAOk_iff.mp hA hreg)

/-- Settles O40: a fault keeps everything but the lifecycle, and completing writes register a and `pc`. -/
theorem frameOfRegisterWriters : Obligations.FrameOfRegisterWriters := by
  intro i s t h hi
  have hhost := keepsHostSide_of_exec h
  have hlife := keepsOrFaults_of_exec h (by rintro ops rfl; exact hi)
  obtain ⟨cause, info, -, rfl⟩ | ⟨hnone, rfl⟩ := exec_cases h
  · exact ⟨fun _ _ => rfl, rfl, rfl, fun _ => rfl, rfl, hhost, hlife⟩
  · cases i with
    | ldi ops | add ops | sub ops | mul ops | div ops =>
      have hreg := slotA_eq_regA_of_completes hnone rfl
      refine ⟨fun r hr => ?_, rfl, rfl, fun _ => rfl, rfl, hhost, hlife⟩
      have hne : r ≠ ops.regA := fun he => hr (he ▸ hreg.symm)
      exact (State.reg_setReg s ops.regA r _).trans (if_neg hne)
    | prn | hlt | push | pop | call | ret | jmp | jeq | jne | cmp => exact hi.elim

/-- Settles O41: of these instructions each completes in a state with only its own field and `pc` written. -/
theorem frameOfInstructionsThatWriteNoRegister : Obligations.FrameOfInstructionsThatWriteNoRegister := by
  intro i s t h hi
  have hhost := keepsHostSide_of_exec h
  have hlife := keepsOrFaults_of_exec h
  obtain ⟨cause, info, hfault, rfl⟩ | ⟨-, rfl⟩ := exec_cases h
  · refine ⟨rfl, rfl, fun _ => rfl, hhost, fun _ => rfl, fun _ => rfl, hlife, ?_⟩
    rintro ops rfl
    cases hfault
  · have hfl (hcmp : ∀ ops, i ≠ .cmp ops) := exec_fl_of_not_cmp hcmp h
    have hnofault : ∀ ops, i = .hlt ops → (i.completed s).fault = s.fault := fun _ _ => i.completed_fault s
    cases i with
    | prn ops => exact ⟨rfl, rfl, fun _ => rfl, hhost, hfl, fun hprn => absurd rfl (hprn ops), hlife, hnofault⟩
    | hlt | cmp | jmp | jeq | jne => exact ⟨rfl, rfl, fun _ => rfl, hhost, hfl, fun _ => rfl, hlife, hnofault⟩
    | ldi | push | pop | call | ret | add | sub | mul | div => exact hi.elim

/-- Settles O42: what PUSH and CALL complete in is a push, with `pc` written. -/
theorem frameOfStackWriters : Obligations.FrameOfStackWriters := by
  intro i s t h hi
  have hhost := keepsHostSide_of_exec h
  have hlife := keepsOrFaults_of_exec h (by rintro ops rfl; obtain ⟨_, hi | hi⟩ := hi <;> cases hi)
  obtain ⟨cause, info, -, rfl⟩ | ⟨-, rfl⟩ := exec_cases h
  · exact ⟨fun _ _ => rfl, rfl, rfl, rfl, fun _ _ => rfl, hhost, hlife, fun _ => ⟨rfl, rfl, rfl⟩⟩
  · obtain ⟨ops, rfl | rfl⟩ := hi <;>
    exact ⟨fun r hr => (State.reg_setReg s 7 r _).trans (if_neg hr), rfl, rfl, rfl, fun addr => pushed_read_of_ne, hhost,
      hlife, fun hne => absurd (Instr.completed_fault _ s) hne⟩

/-- Settles O43: what POP completes in is a pop, with `pc` written, and what RET completes in is a return. -/
theorem frameOfStackReaders : Obligations.FrameOfStackReaders := by
  intro i s t h hi
  have hhost := keepsHostSide_of_exec h
  have hlife := keepsOrFaults_of_exec h (by rintro ops rfl; obtain ⟨_, hi | hi⟩ := hi <;> cases hi)
  obtain ⟨cause, info, -, rfl⟩ | ⟨hnone, rfl⟩ := exec_cases h
  · exact ⟨fun _ _ _ => rfl, rfl, fun _ => rfl, rfl, fun _ => rfl, hhost, hlife⟩
  · obtain ⟨ops, rfl | rfl⟩ := hi
    · have hreg := slotA_eq_regA_of_completes hnone rfl
      refine ⟨fun r hr hdest => ?_, rfl, fun _ => rfl, rfl, fun _ => rfl, hhost, hlife⟩
      exact popped_reg_of_ne (fun he => hdest ops rfl (he ▸ hreg.symm)) hr
    · exact ⟨fun r hr _ => returned_reg_of_ne hr, rfl, fun hret => absurd rfl (hret ops), rfl, fun _ => rfl, hhost,
        hlife⟩

/-- The state with another value in the return latch. -/
def State.setRa (ra : Byte) (s : State) : State :=
  { s with ra := ra }

/-- R16: no fatal condition depends on the latch. -/
theorem fault_setRa (i : Instr) (ra : Byte) (s : State) : i.fault (s.setRa ra) = i.fault s := rfl

/-- R16: an instruction other than RET carries any other latch through. -/
theorem completed_setRa (hret : ∀ ops, i ≠ .ret ops) (ra : Byte) (s : State) :
    i.completed (s.setRa ra) = (i.completed s).setRa ra := by
  cases i with
  | ret ops => exact absurd rfl (hret ops)
  | ldi | prn | hlt | push | pop | call | jmp | jeq | jne | add | sub | mul | div | cmp => rfl

/-- Settles O47: a change of the latch meets the same fatal condition, and RET alone overwrites it. -/
theorem theReturnLatchIsNeverRead : Obligations.TheReturnLatchIsNeverRead := by
  intro i s t ra h
  refine ⟨fun hret => ?_, ?_⟩
  · refine (exec_eq i (s.setRa ra)).trans ?_
    rw [fault_setRa, completed_setRa hret]
    obtain ⟨cause, info, hfault, rfl⟩ | ⟨hnone, rfl⟩ := exec_cases h
    · rw [hfault]
      rfl
    · rw [hnone]
      rfl
  · rintro ⟨ops, rfl⟩
    exact (exec_ret_eq (s := s.setRa ra)).trans ((exec_ret_eq (s := s)).symm.trans h)

end Sys2Proof.Machine
end

section
/-! PROOFS. The memory as its 256 bytes (R32, R61). -/

namespace Sys2Proof.Machine

variable {m m' : Memory} {low : Nat}

theorem Memory.wfFrom_cons {a : Nat} {v : Byte} : Memory.wfFrom low ((a, v) :: m) = true ↔
    low ≤ a ∧ a < Config.memorySize ∧ v ≠ Config.unlistedByte ∧ Memory.wfFrom (a + 1) m = true := by
  simp only [Memory.wfFrom, Bool.and_eq_true, decide_eq_true_eq, and_assoc]

theorem Memory.read_cons_self (a : Nat) (v : Byte) : Memory.read ((a, v) :: m) a = v :=
  if_pos rfl

theorem Memory.read_cons_of_ne {a addr : Nat} (v : Byte) (h : addr ≠ a) :
    Memory.read ((a, v) :: m) addr = m.read addr :=
  if_neg h

/-- Below its first address a canonical memory lists nothing. -/
theorem Memory.read_below (h : Memory.wfFrom low m = true) {addr : Nat} (ha : addr < low) :
    m.read addr = Config.unlistedByte := by
  induction m generalizing low with
  | nil => rfl
  | cons c rest ih =>
    obtain ⟨hlow, -, -, hrest⟩ := Memory.wfFrom_cons.mp h
    rw [Memory.read_cons_of_ne c.2 (by omega)]
    exact ih hrest (by omega)

/-- A canonical memory that reads as a cell-less one has no cell. -/
theorem Memory.eq_nil_of_read (h : Memory.wfFrom low m = true) (hread : ∀ a, m.read a = Config.unlistedByte) :
    m = [] := by
  cases m with
  | nil => rfl
  | cons c rest =>
    obtain ⟨-, -, hv, -⟩ := Memory.wfFrom_cons.mp h
    exact absurd ((Memory.read_cons_self c.1 c.2).symm.trans (hread c.1)) hv

/-- The first cells of two canonical memories that read alike are at the same address. -/
theorem Memory.head_le_of_read {a b : Nat} {v w : Byte} (h : Memory.wfFrom low ((a, v) :: m) = true)
    (h' : Memory.wfFrom low ((b, w) :: m') = true)
    (hread : ∀ addr, Memory.read ((a, v) :: m) addr = Memory.read ((b, w) :: m') addr) : b ≤ a := by
  refine Nat.le_of_not_lt fun hlt => ?_
  obtain ⟨-, -, hv, -⟩ := Memory.wfFrom_cons.mp h
  obtain ⟨-, hb, hw, hrest'⟩ := Memory.wfFrom_cons.mp h'
  have hbelow : Memory.wfFrom b ((b, w) :: m') = true := Memory.wfFrom_cons.mpr ⟨Nat.le_refl _, hb, hw, hrest'⟩
  exact hv ((Memory.read_cons_self a v).symm.trans ((hread a).trans (Memory.read_below hbelow (by omega))))

theorem Memory.eq_of_read_eq (h : Memory.wfFrom low m = true) (h' : Memory.wfFrom low m' = true)
    (hread : ∀ a, m.read a = m'.read a) : m = m' := by
  induction m generalizing m' low with
  | nil => exact (Memory.eq_nil_of_read h' fun a => (hread a).symm).symm
  | cons c rest ih =>
    obtain ⟨a, v⟩ := c
    match m' with
    | [] => exact Memory.eq_nil_of_read h hread
    | (b, w) :: rest' =>
      obtain rfl : a = b :=
        Nat.le_antisymm (Memory.head_le_of_read h' h fun addr => (hread addr).symm) (Memory.head_le_of_read h h' hread)
      obtain ⟨-, -, -, hrest⟩ := Memory.wfFrom_cons.mp h
      obtain ⟨-, -, -, hrest'⟩ := Memory.wfFrom_cons.mp h'
      obtain rfl : v = w := by simpa only [Memory.read_cons_self] using hread a
      rw [ih hrest hrest' fun addr => ?_]
      by_cases haddr : addr = a
      · rw [Memory.read_below hrest (by omega), Memory.read_below hrest' (by omega)]
      · simpa only [Memory.read_cons_of_ne _ haddr] using hread addr

/-- R32: past address 255 a canonical memory lists nothing. -/
theorem Memory.read_above (h : Memory.wfFrom low m = true) {addr : Nat} (ha : 255 < addr) :
    m.read addr = Config.unlistedByte := by
  induction m generalizing low with
  | nil => rfl
  | cons c rest ih =>
    obtain ⟨-, hc, -, hrest⟩ := Memory.wfFrom_cons.mp h
    rw [Memory.read_cons_of_ne c.2 (Nat.ne_of_gt (Nat.lt_of_lt_of_le hc ha))]
    exact ih hrest

/-- Settles O51: the two read alike past address 255 as well, and then cell by cell. -/
theorem memoriesThatReadAlikeAreEqual : Obligations.MemoriesThatReadAlikeAreEqual := by
  intro m m' h h' hread
  refine Memory.eq_of_read_eq h h' fun a => ?_
  by_cases ha : a ≤ 255
  · exact hread a ha
  · rw [Memory.read_above h (by omega), Memory.read_above h' (by omega)]

/-- R61: an image from `low` on, byte by byte, and 0x00 past its end. -/
theorem Memory.read_ofBytes (bytes : List Byte) (low i : Nat) :
    (Memory.ofBytes low bytes).read (low + i) = bytes.getD i 0x00#8 := by
  induction bytes generalizing low i with
  | nil => rfl
  | cons b rest ih =>
    cases i with
    | zero =>
      simp only [Memory.ofBytes]
      split
      · next hb => exact (Memory.read_ofBytes_below rest (low + 1) low (Nat.lt_succ_self _)).trans hb.symm
      · exact Memory.read_cons_self low b
    | succ i =>
      have hnext : low + (i + 1) = low + 1 + i := by omega
      rw [List.getD_cons_succ, ← ih (low + 1) i, hnext]
      simp only [Memory.ofBytes]
      split
      · rfl
      · exact Memory.read_cons_of_ne b (by omega)

/-- Settles O52: an image that fits becomes the memory `Memory.ofBytes`, which reads as the image. -/
theorem loadImageReplacesMemory : Obligations.LoadImageReplacesMemory := by
  intro bytes s hs hb
  rw [loadImage_of_fits hs hb]
  refine ⟨rfl, rfl, fun a => ?_⟩
  rw [← Memory.read_ofBytes bytes 0 a, Nat.zero_add]

end Sys2Proof.Machine
end

section
/-! PROOFS. The host's transactions (R23, R61, R62, R98), the accessors and codes (R94, R112), and reset (R114). -/

namespace Sys2Proof.Machine

variable {s t u : State}

/-- Settles O53: the other two answers of `load_image`. -/
theorem loadImageRejectsAndRefuses : Obligations.LoadImageRejectsAndRefuses :=
  fun bytes _ => ⟨loadImage_of_too_long, loadImage_of_not_ready bytes⟩

theorem readyTurn_of_none (hcall : hostCall s = none) : readyTurn s = nextHostCall s := by
  simp only [readyTurn, hcall]

theorem readyTurn_of_load {bytes : List Byte} (hcall : hostCall s = some (.loadImage bytes)) :
    readyTurn s = { (loadImage bytes s).2 with
      hostCalls := s.hostCalls.tail, hostReplies := s.hostReplies ++ [(loadImage bytes s).1] } := by
  simp only [readyTurn, hcall]

theorem readyTurn_of_run (hcall : hostCall s = some .run) :
    readyTurn s = startLoop { nextHostCall s with runsWaiting := s.runsWaiting + 1 } := by
  simp only [readyTurn, hcall]

/-- Settles O54: the host's turn in Ready and in Halted, by the transaction made. -/
theorem stepServesTheHost : Obligations.StepServesTheHost := by
  refine ⟨fun s hs hcall => ?_, fun s bytes hs hcall => ?_, fun s hs hcall => ?_, fun s hs => ?_⟩
  · rw [step_of_ready hs, readyTurn_of_none hcall]
    rfl
  · rw [step_of_ready hs, readyTurn_of_load hcall]
  · rw [step_of_ready hs, readyTurn_of_run hcall]
    rfl
  · rw [step_of_halted hs, haltedTurn, ← List.append_assoc]
    match hcall : hostCall s with
    | none =>
      rw [repliesWhileHalted_of_none hcall]
      rfl
    | some (.loadImage bytes) =>
      rw [repliesWhileHalted_of_load hs hcall]
      rfl
    | some .run =>
      rw [repliesWhileHalted_of_run hcall]
      rfl

/-- Settles O57, by the two sides of the accessor's bounds check. -/
theorem readMemIsBoundsChecked : Obligations.ReadMemIsBoundsChecked :=
  fun _ _ => ⟨fun h => if_neg (Nat.not_lt_of_le h), fun h => if_pos h⟩

theorem FaultCause.code_pos (cause : FaultCause) : 0 < cause.code := by
  cases cause <;> decide

/-- Settles O58: the codes of the causes start at 1, so 0 is left for no fault. -/
theorem faultCodesAreThoseOfTheTable : Obligations.FaultCodesAreThoseOfTheTable := by
  refine ⟨rfl, rfl, rfl, rfl, rfl, rfl, fun _ => rfl, fun report => ?_⟩
  cases report with
  | none => exact iff_of_true rfl rfl
  | some f => exact iff_of_false (Nat.ne_of_gt f.cause.code_pos) (Option.some_ne_none f)

/-- Settles O22, field by field of `State.reset`. -/
theorem resetLeavesTheStatedValues : Obligations.ResetLeavesTheStatedValues :=
  ⟨by decide, fun _ => rfl, rfl, rfl, rfl, rfl, rfl, rfl, rfl, rfl⟩

/-- Settles O20: after reset nothing is listed, recorded or waiting. -/
theorem resetMeetsTheInvariant : Obligations.ResetMeetsTheInvariant where
  mem_wf := rfl
  pc_le := Nat.zero_le _
  fl_legal := rfl
  ready_fresh := fun _ => ⟨rfl, rfl, rfl, rfl, rfl, rfl⟩
  reason_none := iff_of_true rfl (by decide)
  fault_recorded := by decide
  fault_legal := fun f h => by cases h
  trace_one := rfl

/-- Settles O56: the load's turn, then the turn of `run()`. -/
theorem bootLoadsTheImageAndStartsAtZero : Obligations.BootLoadsTheImageAndStartsAtZero := by
  intro bytes hb
  have hload := step_of_ready (s := { State.reset with hostCalls := [some (.loadImage bytes), some .run] }) rfl
  rw [readyTurn_of_load rfl, loadImage_of_fits rfl hb] at hload
  refine ⟨_, (core_run_succ 1 hload).trans (core_run_succ 0 (step_of_ready rfl)), rfl, rfl, fun a => ?_, rfl⟩
  exact (congrArg _ (Nat.zero_add a)).symm.trans (Memory.read_ofBytes bytes 0 a)

/-- The state with other answers given and other `run()` calls waiting. -/
def State.setHost (replies : List HostReply) (runs : Nat) (s : State) : State :=
  { s with hostReplies := replies, runsWaiting := runs }

theorem completed_setHost (i : Instr) (replies : List HostReply) (runs : Nat) (s : State) :
    i.completed (s.setHost replies runs) = (i.completed s).setHost replies runs := by
  cases i <;> rfl

/-- R23: what the bytes at `pc` do does not depend on the answers given or the calls that wait. -/
theorem runDecoded_setHost (d : Decoded) (replies : List HostReply) (runs : Nat) (s : State) :
    runDecoded d (s.setHost replies runs) = mapNext (State.setHost replies runs) (runDecoded d s) := by
  have hfault : d.fault (s.setHost replies runs) = d.fault s := rfl
  have hcompleted : d.completed (s.setHost replies runs) = (d.completed s).setHost replies runs := by
    cases d with
    | instr i rest => exact completed_setHost i replies runs s
    | noop | illegalOperandCount | missingByte | unsupportedOperation => rfl
  rw [runDecoded_eq, runDecoded_eq, hfault, hcompleted]
  cases d.fault s <;> rfl

/-- R63: a step of a Running machine, as what it does after the boundary. -/
theorem step_running_eq (hs : s.status = .running) :
    step s = if stopAsserted s then .next (takeStop (boundary s))
      else runDecoded (decode (fetchBytes s)) (boundary s) := by
  cases hstop : stopAsserted s with
  | true => exact step_of_stop hs hstop
  | false => exact step_of_running hs hstop

/-- R23: so a step that begins after the same boundary, but for these two fields, ends alike but for them. -/
theorem step_setHost {s' : State} {replies : List HostReply} {runs : Nat}
    (hboundary : boundary s' = (boundary s).setHost replies runs) (hstop : stopAsserted s' = stopAsserted s)
    (hs : s.status = .running) (hs' : s'.status = .running) (h : step s = .next u) :
    step s' = .next (u.setHost replies runs) := by
  have hfetch : fetchBytes s' = fetchBytes s := by
    show fetchBytes (boundary s') = _
    rw [hboundary]
    rfl
  rw [step_running_eq hs] at h
  rw [step_running_eq hs', hstop, hfetch, hboundary, runDecoded_setHost]
  cases hstop : stopAsserted s with
  | true =>
    rw [hstop] at h
    cases h
    rfl
  | false =>
    rw [hstop] at h
    exact congrArg (mapNext _) h

/-- R23: what a step of a Running machine does to the host's fields is what its boundary does. -/
theorem step_running_host (hs : s.status = .running) (h : step s = .next t) :
    t.hostCalls = s.hostCalls.tail ∧ t.hostReplies = s.hostReplies ++ repliesWhileRunning s ∧
      t.runsWaiting = s.runsWaiting + runsMadeWhileRunning s := by
  obtain ⟨-, rfl⟩ | ⟨-, cause, info, -, rfl⟩ | ⟨-, -, rfl⟩ := step_running_cases hs h
  · exact ⟨rfl, rfl, rfl⟩
  · exact ⟨rfl, rfl, rfl⟩
  · obtain ⟨-, -, hcalls, hreplies, hruns⟩ := (decode (fetchBytes s)).completed_keepsHostSide (boundary s)
    exact ⟨hcalls, hreplies, hruns⟩

theorem repliesWhileRunning_of_load {bytes : List Byte} (hs : s.status = .running)
    (hcall : hostCall s = some (.loadImage bytes)) : repliesWhileRunning s = [.imageRefused] := by
  simp only [repliesWhileRunning, hcall]
  rw [loadImage_of_not_ready bytes (by simp [hs])]

/-- The state in which the host makes `call` at the coming boundary and `later` at those after it. -/
def State.withCall (call : Option HostCall) (later : List (Option HostCall)) (s : State) : State :=
  { s with hostCalls := call :: later }

theorem boundary_withCall_load (hs : s.status = .running) (bytes : List Byte) (later : List (Option HostCall)) :
    boundary (s.withCall (some (.loadImage bytes)) later) =
      (boundary (s.withCall none later)).setHost (s.hostReplies ++ [.imageRefused]) s.runsWaiting := by
  have hload : repliesWhileRunning (s.withCall (some (.loadImage bytes)) later) = [.imageRefused] :=
    repliesWhileRunning_of_load hs rfl
  rw [boundary, serveWhileRunning, hload]
  rfl

theorem boundary_withCall_run (later : List (Option HostCall)) :
    boundary (s.withCall (some .run) later) =
      (boundary (s.withCall none later)).setHost s.hostReplies (s.runsWaiting + 1) := by
  have hrun : repliesWhileRunning (s.withCall (some .run) later) = [] := rfl
  rw [boundary, serveWhileRunning, hrun, List.append_nil]
  rfl

/-- Settles O55: the boundary serves the transaction, and the step after it carries what that gave through. -/
theorem transactionsWhileRunningDoNotDisturbTheStep : Obligations.TransactionsWhileRunningDoNotDisturbTheStep := by
  intro s u later hs h
  obtain ⟨hcalls, hreplies, hruns⟩ := step_running_host (s := s.withCall none later) hs h
  have hreplies : u.hostReplies = s.hostReplies := hreplies.trans (List.append_nil _)
  have hruns : u.runsWaiting = s.runsWaiting := hruns
  refine ⟨hreplies, hruns, hcalls, fun bytes => ?_, ?_⟩
  · refine (step_setHost (boundary_withCall_load hs bytes later) rfl hs hs h).trans ?_
    rw [← hruns]
    rfl
  · refine (step_setHost (boundary_withCall_run later) rfl hs hs h).trans ?_
    rw [← hreplies]
    rfl

end Sys2Proof.Machine
end

section
/-! PROOFS. Whole runs: a safe run's end (R121) and the slide through zeroed memory (R115). -/

namespace Sys2Proof.Machine

variable {k : Nat} {s t : State}

/-- A run of one step more begins with a step. -/
theorem exists_step_of_core_run_succ (h : Sys2Proof.core.run (k + 1) s = .next t) :
    ∃ u, step s = .next u ∧ Sys2Proof.core.run k u = .next t := by
  obtain ⟨hstep, -⟩ := everyStepAnswersANextState
  obtain ⟨u, hu⟩ := hstep s
  exact ⟨u, hu, (core_run_succ k hu).symm.trans h⟩

/-- The invariant holds along every run that begins in it. -/
theorem State.Inv.run (hs : s.Inv) (h : Sys2Proof.core.run k s = .next t) : t.Inv := by
  induction k generalizing s with
  | zero =>
    cases h
    exact hs
  | succ k ih =>
    obtain ⟨u, hstep, hrun⟩ := exists_step_of_core_run_succ h
    exact ih (everyStepKeepsTheInvariant s u hs hstep) hrun

/-- Settles O59: the last state meets the invariant, and its reason is not Fault. -/
theorem safeRunEndsWithoutAFaultRecord : Obligations.SafeRunEndsWithoutAFaultRecord := by
  intro k s t hs hsafe hrun
  have ht := hs.run hrun
  have hreason : t.reason ≠ .fault := hsafe k t (Nat.le_refl k) hrun
  refine ⟨?_, fun hhalted => ?_, fun htrace => ?_⟩
  · exact Option.not_isSome_iff_eq_none.mp fun hf => hreason (ht.fault_recorded.mp hf)
  · have hnone : t.reason ≠ .none := fun h => ht.reason_none.mp h hhalted
    cases h : t.reason with
    | none => exact absurd h hnone
    | fault => exact absurd h hreason
    | hlt => exact .inl rfl
    | stopped => exact .inr rfl
  · refine Decidable.byContradiction fun hstopped => ?_
    rw [ht.trace_one, if_neg hstopped] at htrace
    exact htrace rfl

/-- R57, R115: a word of 0x00 is the no-op that advances by one. -/
theorem step_of_zero_word (hs : Executes s) (hpc : s.pc.toNat ≤ 255) (hword : s.mem.read s.pc.toNat = 0x00#8) :
    step s = .next { boundary s with pc := BitVec.ofNat 9 (s.pc.toNat + 1) } := by
  obtain ⟨rest, hfetch⟩ := fetchBytes_of_le_255 hpc
  refine step_of_decode (d := .noop 0#5 .zero rest) hs ?_
  rw [hfetch, hword, decode_of_count_zero rfl]
  rfl

/-- R65: no word can be fetched at 256. -/
theorem step_at_256 (hs : Executes s) (hpc : s.pc.toNat = 256) :
    step s = .next (enterFault .addressOutOfBounds 256 (boundary s)) := by
  refine step_of_missingByte (k := 0) hs ?_ hpc
  rw [fetchBytes_eq, if_neg (by omega)]
  rfl

/-- The state in which a slide that began in `s` has faulted after `k` steps, with the host's answers and waiting calls
then. -/
def afterSlide (k : Nat) (s : State) (replies : List HostReply) (runs : Nat) : State :=
  faultState .addressOutOfBounds 256 { s with
    pc := 256#9, hostCalls := s.hostCalls.drop k, hostReplies := replies, runsWaiting := runs }

theorem enterFault_boundary_eq_afterSlide (hstop : s.stopReq = []) (hpc : s.pc.toNat = 256) :
    enterFault .addressOutOfBounds 256 (boundary s) =
      afterSlide 1 s (boundary s).hostReplies (boundary s).runsWaiting := by
  have hpc : s.pc = 256#9 := BitVec.eq_of_toNat_eq hpc
  simp [enterFault, afterSlide, boundary, pollStop, serveWhileRunning, nextHostCall, hstop, hpc]

theorem afterSlide_boundary (hstop : s.stopReq = []) (pc : Pc) (k : Nat) (replies : List HostReply) (runs : Nat) :
    afterSlide k { boundary s with pc := pc } replies runs = afterSlide (k + 1) s replies runs := by
  simp [afterSlide, hstop]

/-- Settles O60, by induction on the distance to 256. -/
theorem zeroedMemorySlidesToAFault : Obligations.ZeroedMemorySlidesToAFault := by
  intro k
  induction k with
  | zero =>
    intro s hs hstop hmem hpc
    refine ⟨_, (core_run_succ 0 (step_at_256 ⟨hs, by simp [stopAsserted, hstop]⟩ hpc)), ?_⟩
    exact enterFault_boundary_eq_afterSlide hstop hpc
  | succ k ih =>
    intro s hs hstop hmem hpc
    have hstep := step_of_zero_word ⟨hs, by simp [stopAsserted, hstop]⟩ (by omega) (hmem _)
    obtain ⟨t, hrun, ht⟩ := ih { boundary s with pc := BitVec.ofNat 9 (s.pc.toNat + 1) } hs (by simp [hstop]) hmem
      (by simp only [BitVec.toNat_ofNat]; omega)
    exact ⟨t, (core_run_succ (k + 1) hstep).trans hrun, ht.trans (afterSlide_boundary hstop _ _ _ _)⟩

end Sys2Proof.Machine
end
